-- ==== Sys2Proof/Word.lean ====
section
/-! DEFINITION. The word types of the unit and the number readings of 00_scope.md rule R9. -/

namespace Sys2Proof

/-- One byte: an opcode, an operand byte, a byte of the program store or of the heap (R82, R57). -/
abbrev Byte := BitVec 8

/-- A 16-bit immediate (R87). -/
abbrev Imm16 := BitVec 16

/-- A 32-bit register pattern (R20, R23, R27). `toInt` is the spec's `s32`, `toNat` its `u32` (R9). -/
abbrev Word := BitVec 32

/-- The least value of `s32`, −2^31 (R9). -/
abbrev s32Min : Int := -2147483648

/-- The greatest value of `s32`, 2^31 − 1 (R9). -/
abbrev s32Max : Int := 2147483647

/-- `wrap32(n)`: the pattern whose `s32` value is congruent to n modulo 2^32 (R9). -/
abbrev wrap32 (n : Int) : Word := BitVec.ofInt 32 n

end Sys2Proof
end

