-- ==== Sys2Proof/Config.lean ====
section
/-! DEFINITION. What a build of the block fixes: the opcode names and formats, and the OPEN parameters of
00_scope.md rule R8 (OPCODE_MAP, ARITH_ORDER, ARITH_OVERFLOW, PROG_MAX, HEAP_MAX) with their defaults. -/

namespace Sys2Proof

/-- The sixteen opcodes, in the order the spec lists them (R3). `igl` is the sentinel for a byte that maps to no
real opcode. -/
inductive Opcode where
  | load | hlt | add | sub | mul | div | jmp | jmpf | jmpb | eq | jeq | jneq | aloc | inc | dec | igl
  deriving DecidableEq, Repr

/-- The five instruction formats (R82). -/
inductive Format where
  | f0     -- opcode
  | fr     -- opcode, r
  | fri    -- opcode, r, imm16
  | frrr   -- opcode, f1, f2, f3
  | frrp   -- opcode, s1, s2, pad
  deriving DecidableEq, Repr

/-- OPCODE_MAP: the byte value of each of the fifteen real opcodes (R85). -/
structure OpcodeMap where
  load : Byte
  hlt  : Byte
  add  : Byte
  sub  : Byte
  mul  : Byte
  div  : Byte
  jmp  : Byte
  jmpf : Byte
  jmpb : Byte
  eq   : Byte
  jeq  : Byte
  jneq : Byte
  aloc : Byte
  inc  : Byte
  dec  : Byte
  deriving DecidableEq, Repr

/-- The default OPCODE_MAP, the table of R84. -/
def OpcodeMap.default : OpcodeMap where
  load := 0x00#8
  hlt  := 0x01#8
  add  := 0x02#8
  sub  := 0x03#8
  mul  := 0x04#8
  div  := 0x05#8
  jmp  := 0x06#8
  jmpf := 0x07#8
  jmpb := 0x08#8
  eq   := 0x09#8
  jeq  := 0x0A#8
  jneq := 0x0B#8
  aloc := 0x0C#8
  inc  := 0x0D#8
  dec  := 0x0E#8

/-- The fifteen byte values of a map, in the order of R3. -/
def OpcodeMap.bytes (m : OpcodeMap) : List Byte :=
  [m.load, m.hlt, m.add, m.sub, m.mul, m.div, m.jmp, m.jmpf, m.jmpb, m.eq, m.jeq, m.jneq, m.aloc, m.inc, m.dec]

/-- OPCODE_MAP is injective (R85). -/
abbrev OpcodeMap.wf (m : OpcodeMap) : Prop := m.bytes.Nodup

/-- ARITH_ORDER: which byte of an FRRR instruction is the destination (R88). -/
inductive ArithOrder where
  | srcSrcDst
  | dstSrcSrc
  deriving DecidableEq, Repr

/-- ARITH_OVERFLOW: what ADD, SUB, MUL, INC and DEC do with a result outside the s32 range (R171). -/
inductive ArithOverflow where
  | wrap
  | fault
  deriving DecidableEq, Repr

/-- The OPEN parameters of one build of the block (R8). They are fixed for the build; RESET does not change them
(R270). -/
structure Config where
  opcodes       : OpcodeMap
  arithOrder    : ArithOrder
  arithOverflow : ArithOverflow
  progMax       : Nat
  heapMax       : Nat
  deriving DecidableEq, Repr

/-- The ranges R8 gives the parameters. -/
abbrev Config.wf (c : Config) : Prop :=
  c.opcodes.wf ∧ 1 ≤ c.progMax ∧ c.progMax ≤ 4294967295 ∧ c.heapMax ≤ 4294967295

/-- The spec's defaults for the first three parameters (R84, R88, R171). DESIGN CHOICE (log entry 2): the spec gives
PROG_MAX and HEAP_MAX no default; both take the greatest value R8 allows, as 95_test_vectors.md does for HEAP_MAX. -/
def Config.default : Config where
  opcodes       := OpcodeMap.default
  arithOrder    := .srcSrcDst
  arithOverflow := .wrap
  progMax       := 4294967295
  heapMax       := 4294967295

end Sys2Proof
end

