-- ==== Sys2Proof/Machine/State.lean ====
section
/-! DEFINITION. The architectural state of the unit (10_state.md rule R33), its value after reset, the stop codes
(60_exceptions.md rule R242), and the reasons a step of the model could stop outside a next state. -/

namespace Sys2Proof.Machine

/-- A byte sequence addressed from 0 to `len` − 1: the program store P or the heap H (R29, R30). `cells` is sparse;
an unlisted address below `len` holds 0x00 (log entry 5), and an address at or past `len` does not exist. -/
structure Memory where
  cells : List Host.Cell
  len   : Nat
  deriving DecidableEq, Repr

/-- The complete architectural state (R33), and the build's parameters, which the step reads. -/
structure State where
  /-- x[0] to x[31] (R20). -/
  regs   : Vector Word 32
  /-- The program counter (R23). -/
  pc     : Word
  /-- The equal flag (R26). -/
  eq     : Bool
  /-- The remainder register (R27). -/
  rem    : Word
  /-- The status register: bits 3:0 the stop code, bits 7:4 reserved (R28). -/
  status : Byte
  /-- The program store P (R29). -/
  prog   : Memory
  /-- The heap H (R30). -/
  heap   : Memory
  /-- The MODEL's own field (log entry 1): the OPEN parameters of this build (R8). No step and no command changes
  it (R270). -/
  build  : Config
  deriving DecidableEq, Repr

/-- The stop codes by name (R242). -/
inductive StopCode where
  | running | halted | endOfProgram | illegalOpcode
  | truncated | regIndex | divByZero | divOverflow | arithOverflow
  | pcOverflow | jumpUnderflow | heapNegative | heapOverflow
  deriving DecidableEq, Repr

/-- The machine after RESET (R33, R270): registers 0, pc 0, eq false, rem 0, status RUNNING, both memories empty. The
build is the default one; RESET of another build keeps that build (`State.afterReset`). -/
def State.reset : State where
  regs   := Vector.replicate 32 0#32
  pc     := 0#32
  eq     := false
  rem    := 0#32
  status := 0x00#8
  prog   := { cells := [], len := 0 }
  heap   := { cells := [], len := 0 }
  build  := Config.default

/-- Why a step would stop without a next state. The spec gives every stop, faults included, a next state (R240,
R243): no constructor is needed, none exists, and nothing raises one (log entry 3; safe). -/
inductive Fault : Type
  deriving DecidableEq, Repr

/-- Why an instruction would have no meaning. -/
inductive Refusal where
  /-- Answered by `exec` alone, for an instruction whose meaning is not written. Safe. No arm answers it now. -/
  | notModelled (mnemonic : String)
  deriving DecidableEq, Repr

/-- What a meaning and a step answer. -/
abbrev Result := Host.Outcome State Fault Refusal

end Sys2Proof.Machine
end

