-- ==== Sys2Proof/Machine/Ops.lean ====
section
/-! DEFINITION. The named operations over memory, registers and status; raising a fault, the non-fault stops, and
RESET, which is the only return from a sticky stop (60_exceptions.md rules R243, R244, R247). -/

namespace Sys2Proof.Machine

/-! ### Byte sequences -/

/-- The byte a sparse cell list holds at an address; an unlisted address holds 0x00 (log entry 5). -/
def cellsRead : List Host.Cell → Nat → Byte
  | [], _ => 0x00#8
  | (k, v) :: rest, a => if k = a then v else cellsRead rest a

/-- Write one byte, keeping addresses rising and listing no 0x00. -/
def cellsWrite : List Host.Cell → Nat → Byte → List Host.Cell
  | [], a, b => if b = 0x00#8 then [] else [(a, b)]
  | (k, v) :: rest, a, b =>
    if a < k then (if b = 0x00#8 then (k, v) :: rest else (a, b) :: (k, v) :: rest)
    else if a = k then (if b = 0x00#8 then rest else (a, b) :: rest)
    else (k, v) :: cellsWrite rest a b

/-- The canonical form: addresses strictly rising, each below the length, no cell holding what an unlisted address
reads as. -/
abbrev Memory.wf (m : Memory) : Prop :=
  m.cells.Pairwise (fun c d => c.1 < d.1) ∧ ∀ c ∈ m.cells, c.1 < m.len ∧ c.2 ≠ 0x00#8

/-- The byte at an address, for 0 ≤ a < len; no other address exists (R51, R52). -/
def Memory.read (m : Memory) (a : Nat) : Option Byte :=
  if a < m.len then some (cellsRead m.cells a) else none

/-- Put a byte at address `len` and lengthen the sequence by one (R36). -/
def Memory.append (m : Memory) (b : Byte) : Memory where
  cells := cellsWrite m.cells m.len b
  len   := m.len + 1

/-- `HeapGrow(k)`: append k bytes 0x00. The new addresses len to len + k − 1 are zero-filled: no cell at or past the
old length stays listed (R231, R232). -/
def Memory.grow (m : Memory) (k : Nat) : Memory where
  cells := m.cells.filter fun c => c.1 < m.len
  len   := m.len + k

/-- Put a byte at an address, lengthening the sequence to hold it. No step and no command does this: it places a
fetched word (`State.withFetchWord`). -/
def Memory.place (m : Memory) (a : Nat) (b : Byte) : Memory where
  cells := cellsWrite m.cells a b
  len   := max m.len (a + 1)

/-- Place consecutive bytes from an address. -/
def Memory.placeAll (m : Memory) (a : Nat) : List Byte → Memory
  | [] => m
  | b :: rest => (m.place a b).placeAll (a + 1) rest

/-! ### Registers, flag and program counter -/

/-- `x[i]` (R10, R20). -/
def State.getReg (s : State) (i : Fin 32) : Word := s.regs[i]

/-- `x[i] <- v` (R10). No register is hardwired (R20). -/
def State.setReg (s : State) (i : Fin 32) (v : Word) : State := { s with regs := s.regs.set i v }

/-- `pc <- v` (R10). -/
def State.setPc (s : State) (v : Word) : State := { s with pc := v }

/-- `pc <- a + n`, the sequential advance from the opcode byte at a (R24, R128). It never wraps in a state a run
reaches (R25; log entry 10). -/
def State.advance (s : State) (n : Nat) : State := s.setPc (s.pc + BitVec.ofNat 32 n)

/-- `eq <- f` (R26). -/
def State.setEq (s : State) (f : Bool) : State := { s with eq := f }

/-- `rem <- v` (R27). -/
def State.setRem (s : State) (v : Word) : State := { s with rem := v }

/-- Replace the program store. -/
def State.setProg (s : State) (m : Memory) : State := { s with prog := m }

/-- Replace the heap. -/
def State.setHeap (s : State) (m : Memory) : State := { s with heap := m }

/-! ### The status register -/

/-- The code numbers (R242). -/
def stopBits : StopCode → BitVec 4
  | .running => 0#4
  | .halted => 1#4
  | .endOfProgram => 2#4
  | .illegalOpcode => 3#4
  | .truncated => 4#4
  | .regIndex => 5#4
  | .divByZero => 6#4
  | .divOverflow => 7#4
  | .arithOverflow => 8#4
  | .pcOverflow => 9#4
  | .jumpUnderflow => 10#4
  | .heapNegative => 11#4
  | .heapOverflow => 12#4

/-- `status.code`, bits 3:0 (R28). -/
def State.code (s : State) : BitVec 4 := s.status.extractLsb' 0 4

/-- `status.code <- c`; the reserved bits 7:4 are zero (R28; log entry 6). -/
def State.setCode (s : State) (c : StopCode) : State := { s with status := (stopBits c).setWidth 8 }

/-- A stop that only RESET clears: every code but RUNNING and END_OF_PROGRAM (R120, R132; log entry 6 for the
reserved codes 13 to 15). -/
def State.sticky (s : State) : Bool := s.code != stopBits .running && s.code != stopBits .endOfProgram

/-! ### Stops -/

/-- Taking a fault, `raise <Cause>` (R243): the cause goes to `status.code`, pc stays at the faulting opcode byte a
(it held a when the step began), and nothing else is written. No register, mode or mask is saved or changed, and
control goes nowhere (R246). -/
def State.raise (s : State) (c : StopCode) : State := s.setCode c

/-- A fault as the outcome of a meaning: the spec's own fault entry, a next state (log entry 3). -/
def raised (c : StopCode) (s : State) : Result := .next (s.raise c)

/-- The stop of HLT and IGL (R160, R161, R244): pc keeps the fetch advance a + 1, and the code is set. -/
def State.stopAfterOpcode (s : State) (c : StopCode) : State := (s.advance 1).setCode c

/-- END_OF_PROGRAM (R121): only the code changes. -/
def State.stopAtEnd (s : State) : State := s.setCode .endOfProgram

/-- RESET (R35, R270): every piece of state at its reset value; the build's parameters are not state and stay. There
is no return-from-fault instruction; this is the only way on after a sticky stop (R247). -/
def State.afterReset (s : State) : State := { State.reset with build := s.build }

end Sys2Proof.Machine
end

