-- ==== Sys2Proof/Machine/Flags.lean ====
section
/-! DEFINITION. The flag computation and the overflow law. The unit has one flag, eq, and no carry, sign or overflow
flag (10_state.md rule R26; 43_alu.md rules R170, R171). -/

namespace Sys2Proof.Machine

/-- EQ's flag: all 32 bits compare equal (R204). -/
def equalFlag (a b : Word) : Bool := a == b

/-- An exact result fits s32 (R171). -/
def fitsS32 (e : Int) : Bool := s32Min ≤ e && e ≤ s32Max

/-- The overflow law (R171): the pattern to write for the exact result e, or none where ARITH_OVERFLOW = fault and e
is out of range. -/
def arithResult (mode : ArithOverflow) (e : Int) : Option Word :=
  if fitsS32 e then some (wrap32 e)
  else
    match mode with
    | .wrap => some (wrap32 e)
    | .fault => none

end Sys2Proof.Machine
end

