-- ==== Sys2Proof/Machine/Operands.lean ====
section
/-! DEFINITION. The operand forms: the register index check, the roles of the FRRR bytes, the immediate, the jump
offset (40_cycle.md rule R126; 30_encoding.md rules R86 to R89; 44_control_flow.md rule R200). -/

namespace Sys2Proof.Machine

/-- The register a field names: an index 0 to 31, or none for 32 to 255 (R86). -/
def regIndex (b : Byte) : Option (Fin 32) :=
  if h : b.toNat < 32 then some ⟨b.toNat, h⟩ else none

/-- Check one register field, then go on with its index; REG_INDEX if it is out of range (R126). -/
def withReg (b : Byte) (s : State) (k : Fin 32 → Result) : Result :=
  match regIndex b with
  | some i => k i
  | none => raised .regIndex s

/-- Check two register fields in byte order (R126). -/
def withReg2 (b1 b2 : Byte) (s : State) (k : Fin 32 → Fin 32 → Result) : Result :=
  withReg b1 s fun i1 => withReg b2 s fun i2 => k i1 i2

/-- Check three register fields in byte order (R126). -/
def withReg3 (b1 b2 b3 : Byte) (s : State) (k : Fin 32 → Fin 32 → Fin 32 → Result) : Result :=
  withReg b1 s fun i1 => withReg2 b2 b3 s fun i2 i3 => k i1 i2 i3

/-- The left source s1 of an FRRR instruction (R88). -/
def srcLeft (o : ArithOrder) (f1 f2 _f3 : Fin 32) : Fin 32 :=
  match o with
  | .srcSrcDst => f1
  | .dstSrcSrc => f2

/-- The right source s2 of an FRRR instruction (R88). -/
def srcRight (o : ArithOrder) (_f1 f2 f3 : Fin 32) : Fin 32 :=
  match o with
  | .srcSrcDst => f2
  | .dstSrcSrc => f3

/-- The destination d of an FRRR instruction (R88). -/
def dest (o : ArithOrder) (f1 _f2 f3 : Fin 32) : Fin 32 :=
  match o with
  | .srcSrcDst => f3
  | .dstSrcSrc => f1

/-- The 32-bit value of LOAD's immediate: `zext_32(imm16)` (R87). -/
def immValue (imm : Imm16) : Word := imm.setWidth 32

/-- The target or offset of a jump: `t = u32(x[r])` (R200). -/
def jumpOperand (s : State) (i : Fin 32) : Nat := (s.getReg i).toNat

/-- The base of the relative jumps, `a + 2`, exact (R208). -/
def jumpBase (s : State) : Nat := s.pc.toNat + 2

end Sys2Proof.Machine
end

