-- ==== Sys2Proof/Machine/Alu.lean ====
section
/-! DEFINITION. The signed-integer ALU: ADD, SUB, MUL, DIV, INC, DEC (43_alu.md). -/

namespace Sys2Proof.Machine

/-- Commit an exact result e to x[d] under the overflow law and advance by n, or raise ARITH_OVERFLOW (R171). -/
def writeResult (d : Fin 32) (e : Int) (n : Nat) (s : State) : Result :=
  match arithResult s.build.arithOverflow e with
  | some v => .next ((s.setReg d v).advance n)
  | none => raised .arithOverflow s

/-- The three-register shape of ADD, SUB and MUL: e <- s32(x[s1]) ∘ s32(x[s2]), exact; both sources are read before
x[d] is written (R22, R170). -/
def aluBinary (op : Int → Int → Int) (f1 f2 f3 : Byte) (s : State) : Result :=
  withReg3 f1 f2 f3 s fun i1 i2 i3 =>
    writeResult (dest s.build.arithOrder i1 i2 i3)
      (op (s.getReg (srcLeft s.build.arithOrder i1 i2 i3)).toInt (s.getReg (srcRight s.build.arithOrder i1 i2 i3)).toInt)
      4 s

/-- The one-register shape of INC and DEC: e <- s32(x[r]) ± 1 (R176, R177). -/
def aluStep (delta : Int) (r : Byte) (s : State) : Result :=
  withReg r s fun i => writeResult i ((s.getReg i).toInt + delta) 2 s

/-- The quotient and remainder of a legal pair: rounded toward zero, the remainder n1 − q·n2 (R175). -/
def divide (n1 n2 : Int) : Int × Int := (n1.tdiv n2, n1 - n1.tdiv n2 * n2)

/-- DIV on checked registers (R175): DIV_BY_ZERO before DIV_OVERFLOW (R131); a fault writes neither x[d] nor rem. -/
def divideInto (s1 s2 d : Fin 32) (s : State) : Result :=
  let n1 := (s.getReg s1).toInt
  let n2 := (s.getReg s2).toInt
  if n2 = 0 then raised .divByZero s
  else if n1 = s32Min ∧ n2 = -1 then raised .divOverflow s
  else .next (((s.setReg d (wrap32 (divide n1 n2).1)).setRem (wrap32 (divide n1 n2).2)).advance 4)

/-- ADD (R172). -/
def execAdd (f1 f2 f3 : Byte) (s : State) : Result := aluBinary (fun a b => a + b) f1 f2 f3 s

/-- SUB (R173): s1 is the minuend. -/
def execSub (f1 f2 f3 : Byte) (s : State) : Result := aluBinary (fun a b => a - b) f1 f2 f3 s

/-- MUL (R174): the low 32 bits of the product under wrap. -/
def execMul (f1 f2 f3 : Byte) (s : State) : Result := aluBinary (fun a b => a * b) f1 f2 f3 s

/-- DIV (R175). -/
def execDiv (f1 f2 f3 : Byte) (s : State) : Result :=
  withReg3 f1 f2 f3 s fun i1 i2 i3 =>
    divideInto (srcLeft s.build.arithOrder i1 i2 i3) (srcRight s.build.arithOrder i1 i2 i3)
      (dest s.build.arithOrder i1 i2 i3) s

/-- INC (R176). -/
def execInc (r : Byte) (s : State) : Result := aluStep 1 r s

/-- DEC (R177). -/
def execDec (r : Byte) (s : State) : Result := aluStep (-1) r s

end Sys2Proof.Machine
end

