-- ==== Sys2Proof/Machine/Control.lean ====
section
/-! DEFINITION. The program-counter and branch-target sequencer: JMP, JMPF, JMPB, EQ, JEQ, JNEQ
(44_control_flow.md). -/

namespace Sys2Proof.Machine

/-- The absolute jump to u32(x[r]), taken if `taken`, else the fall-through a + 2 (R200, R205, R206). The register
field is checked whether or not the jump is taken. -/
def jumpIf (taken : Bool) (r : Byte) (s : State) : Result :=
  withReg r s fun i => if taken then .next (s.setPc (s.getReg i)) else .next (s.advance 2)

/-- JMP (R201): pc <- u32(x[r]). -/
def execJmp (r : Byte) (s : State) : Result := jumpIf true r s

/-- JMPF (R202): the exact sum a + 2 + u32(x[r]), or PC_OVERFLOW where it does not fit 32 bits. -/
def execJmpf (r : Byte) (s : State) : Result :=
  withReg r s fun i =>
    if jumpBase s + jumpOperand s i > 4294967295 then raised .pcOverflow s
    else .next (s.setPc (BitVec.ofNat 32 (jumpBase s + jumpOperand s i)))

/-- JMPB (R203): a + 2 − u32(x[r]), or JUMP_UNDERFLOW where the offset is greater than a + 2. -/
def execJmpb (r : Byte) (s : State) : Result :=
  withReg r s fun i =>
    if jumpOperand s i > jumpBase s then raised .jumpUnderflow s
    else .next (s.setPc (BitVec.ofNat 32 (jumpBase s - jumpOperand s i)))

/-- EQ (R204): eq <- (x[s1] == x[s2]); the pad byte is discarded and never checked (R89). -/
def execEq (s1 s2 _pad : Byte) (s : State) : Result :=
  withReg2 s1 s2 s fun i1 i2 => .next ((s.setEq (equalFlag (s.getReg i1) (s.getReg i2))).advance 4)

/-- JEQ (R205). -/
def execJeq (r : Byte) (s : State) : Result := jumpIf s.eq r s

/-- JNEQ (R206). -/
def execJneq (r : Byte) (s : State) : Result := jumpIf (!s.eq) r s

end Sys2Proof.Machine
end

