-- ==== Sys2Proof/Machine/Halt.lean ====
section
/-! DEFINITION. HLT and IGL, the stopping instructions (42_halt.md). -/

namespace Sys2Proof.Machine

/-- HLT (R160): pc <- a + 1, status.code <- HALTED. -/
def execHlt (s : State) : Result := .next (s.stopAfterOpcode .halted)

/-- IGL (R161): pc <- a + 1, status.code <- ILLEGAL_OPCODE. Not a fault in the sense of R243. -/
def execIgl (s : State) : Result := .next (s.stopAfterOpcode .illegalOpcode)

end Sys2Proof.Machine
end

