-- ==== Sys2Proof/Machine/Heap.lean ====
section
/-! DEFINITION. ALOC, the grow path of the heap controller (45_heap.md). -/

namespace Sys2Proof.Machine

/-- Grow the heap by the count k, HEAP_NEGATIVE before HEAP_OVERFLOW (R131, R231). -/
def allocate (k : Int) (s : State) : Result :=
  if k < 0 then raised .heapNegative s
  else if s.heap.len + k.toNat > s.build.heapMax then raised .heapOverflow s
  else .next ((s.setHeap (s.heap.grow k.toNat)).advance 2)

/-- ALOC (R231): k <- s32(x[r]); append k zero bytes to the heap; pc <- a + 2. -/
def execAloc (r : Byte) (s : State) : Result :=
  withReg r s fun i => allocate (s.getReg i).toInt s

end Sys2Proof.Machine
end

