-- ==== Sys2Proof/Machine/Load.lean ====
section
/-! DEFINITION. LOAD, the only data-movement instruction (41_load.md rule R150). -/

namespace Sys2Proof.Machine

/-- LOAD (R150): x[r] <- zext_32(imm16); pc <- a + 4. It reads no memory as data (R233). -/
def execLoad (r : Byte) (imm : Imm16) (s : State) : Result :=
  withReg r s fun i => .next ((s.setReg i (immValue imm)).advance 4)

end Sys2Proof.Machine
end

