-- ==== Sys2Proof/Syntax.lean ====
section
/-! DEFINITION. The instructions: one constructor per row of spec/opcode_table.json. -/

namespace Sys2Proof

/-- An instruction with its raw operand bytes. A register field is a whole byte, because decode does not check its
range (R86): values 32 to 255 are part of the syntax and raise REG_INDEX when executed (R126). -/
inductive Instr where
  /-- LOAD, format FRI (R150). -/
  | load (r : Byte) (imm : Imm16)
  /-- HLT, format F0 (R160). -/
  | hlt
  /-- ADD, format FRRR (R172); ARITH_ORDER names the roles of the three bytes (R88). -/
  | add (f1 f2 f3 : Byte)
  /-- SUB, format FRRR (R173). -/
  | sub (f1 f2 f3 : Byte)
  /-- MUL, format FRRR (R174). -/
  | mul (f1 f2 f3 : Byte)
  /-- DIV, format FRRR (R175). -/
  | div (f1 f2 f3 : Byte)
  /-- JMP, format FR (R201). -/
  | jmp (r : Byte)
  /-- JMPF, format FR (R202). -/
  | jmpf (r : Byte)
  /-- JMPB, format FR (R203). -/
  | jmpb (r : Byte)
  /-- EQ, format FRRP (R204); the pad byte is discarded (R89). -/
  | eq (s1 s2 pad : Byte)
  /-- JEQ, format FR (R205). -/
  | jeq (r : Byte)
  /-- JNEQ, format FR (R206). -/
  | jneq (r : Byte)
  /-- ALOC, format FR (R231). -/
  | aloc (r : Byte)
  /-- INC, format FR (R176). -/
  | inc (r : Byte)
  /-- DEC, format FR (R177). -/
  | dec (r : Byte)
  /-- IGL, format F0: the decoding of every byte outside OPCODE_MAP (R161). It has no byte of its own (R85). -/
  | igl
  deriving DecidableEq, Repr

end Sys2Proof
end

