-- ==== Sys2Proof/Machine/Dispatch.lean ====
section
/-! DEFINITION. Dispatch: one arm per instruction (40_cycle.md rule R127). -/

namespace Sys2Proof.Machine

/-- The meaning of an instruction whose opcode byte is at pc (R127; log entry 15). -/
def exec (i : Instr) (s : State) : Host.Outcome State Fault Refusal :=
  match i with
  | .load r imm => Sys2Proof.Machine.execLoad r imm s
  | .hlt => Sys2Proof.Machine.execHlt s
  | .add f1 f2 f3 => Sys2Proof.Machine.execAdd f1 f2 f3 s
  | .sub f1 f2 f3 => Sys2Proof.Machine.execSub f1 f2 f3 s
  | .mul f1 f2 f3 => Sys2Proof.Machine.execMul f1 f2 f3 s
  | .div f1 f2 f3 => Sys2Proof.Machine.execDiv f1 f2 f3 s
  | .jmp r => Sys2Proof.Machine.execJmp r s
  | .jmpf r => Sys2Proof.Machine.execJmpf r s
  | .jmpb r => Sys2Proof.Machine.execJmpb r s
  | .eq s1 s2 pad => Sys2Proof.Machine.execEq s1 s2 pad s
  | .jeq r => Sys2Proof.Machine.execJeq r s
  | .jneq r => Sys2Proof.Machine.execJneq r s
  | .aloc r => Sys2Proof.Machine.execAloc r s
  | .inc r => Sys2Proof.Machine.execInc r s
  | .dec r => Sys2Proof.Machine.execDec r s
  | .igl => Sys2Proof.Machine.execIgl s

end Sys2Proof.Machine
end

