-- ==== Sys2Proof/WellFormed.lean ====
section
/-! DEFINITION. The checks on an instruction as syntax: its register fields hold legal indices, and it has an
encoding. The machine does not need them to run: an instruction that fails the first raises REG_INDEX (R126), and
IGL, which fails the second, stops the unit (R161). -/

namespace Sys2Proof

/-- A legal value of a register field: 0 to 31 (R86). -/
def legalReg (b : Byte) : Bool := b.toNat < 32

/-- The register fields of an instruction that are range checked, in byte order (R124, last column). The EQ pad byte
is not one of them (R89). -/
def Instr.regFields : Instr → List Byte
  | .load r _ => [r]
  | .hlt => []
  | .add f1 f2 f3 => [f1, f2, f3]
  | .sub f1 f2 f3 => [f1, f2, f3]
  | .mul f1 f2 f3 => [f1, f2, f3]
  | .div f1 f2 f3 => [f1, f2, f3]
  | .jmp r => [r]
  | .jmpf r => [r]
  | .jmpb r => [r]
  | .eq s1 s2 _ => [s1, s2]
  | .jeq r => [r]
  | .jneq r => [r]
  | .aloc r => [r]
  | .inc r => [r]
  | .dec r => [r]
  | .igl => []

/-- Every checked register field is legal (R86, R126). -/
def Instr.regsLegal (i : Instr) : Bool := i.regFields.all legalReg

/-- IGL is never emitted by the encoder (R85). -/
def Instr.hasEncoding : Instr → Bool
  | .load _ _ => true
  | .hlt => true
  | .add _ _ _ => true
  | .sub _ _ _ => true
  | .mul _ _ _ => true
  | .div _ _ _ => true
  | .jmp _ => true
  | .jmpf _ => true
  | .jmpb _ => true
  | .eq _ _ _ => true
  | .jeq _ => true
  | .jneq _ => true
  | .aloc _ => true
  | .inc _ => true
  | .dec _ => true
  | .igl => false

/-- A well-formed instruction: encodable, with legal register fields. -/
def Instr.wellFormed (i : Instr) : Bool := i.hasEncoding && i.regsLegal

end Sys2Proof
end

