-- ==== Sys2Proof/Decode.lean ====
section
/-! DEFINITION. The wire format: opcode bytes, formats and lengths, the decoder, the encoder, and the opcode table's
bit numbering (30_encoding.md; operand consumption of 40_cycle.md rules R123 and R124). -/

namespace Sys2Proof

/-! ### Opcode bytes -/

/-- `decode(b)`: the opcode whose byte is b, or IGL if there is none (R83, R85; log entry 7 for a map
that is not injective). -/
def opcodeOf (m : OpcodeMap) (b : Byte) : Opcode :=
  if b = m.load then .load
  else if b = m.hlt then .hlt
  else if b = m.add then .add
  else if b = m.sub then .sub
  else if b = m.mul then .mul
  else if b = m.div then .div
  else if b = m.jmp then .jmp
  else if b = m.jmpf then .jmpf
  else if b = m.jmpb then .jmpb
  else if b = m.eq then .eq
  else if b = m.jeq then .jeq
  else if b = m.jneq then .jneq
  else if b = m.aloc then .aloc
  else if b = m.inc then .inc
  else if b = m.dec then .dec
  else .igl

/-- `encode(op)`: OPCODE_MAP(op) for the fifteen real opcodes; IGL has no byte (R85, R92). -/
def opcodeByte (m : OpcodeMap) : Opcode → Option Byte
  | .load => some m.load
  | .hlt => some m.hlt
  | .add => some m.add
  | .sub => some m.sub
  | .mul => some m.mul
  | .div => some m.div
  | .jmp => some m.jmp
  | .jmpf => some m.jmpf
  | .jmpb => some m.jmpb
  | .eq => some m.eq
  | .jeq => some m.jeq
  | .jneq => some m.jneq
  | .aloc => some m.aloc
  | .inc => some m.inc
  | .dec => some m.dec
  | .igl => none

/-! ### Formats and lengths -/

/-- The format of each opcode (R82, last column). -/
def opcodeFormat : Opcode → Format
  | .load => .fri
  | .hlt => .f0
  | .add => .frrr
  | .sub => .frrr
  | .mul => .frrr
  | .div => .frrr
  | .jmp => .fr
  | .jmpf => .fr
  | .jmpb => .fr
  | .eq => .frrp
  | .jeq => .fr
  | .jneq => .fr
  | .aloc => .fr
  | .inc => .fr
  | .dec => .fr
  | .igl => .f0

/-- The length in bytes of an instruction of a format (R82). -/
def formatLength : Format → Nat
  | .f0 => 1
  | .fr => 2
  | .fri => 4
  | .frrr => 4
  | .frrp => 4

/-- The instruction length n that the opcode alone determines (R81). -/
def opcodeLength (op : Opcode) : Nat := formatLength (opcodeFormat op)

/-- The opcode of an instruction. -/
def Instr.opcode : Instr → Opcode
  | .load _ _ => .load
  | .hlt => .hlt
  | .add _ _ _ => .add
  | .sub _ _ _ => .sub
  | .mul _ _ _ => .mul
  | .div _ _ _ => .div
  | .jmp _ => .jmp
  | .jmpf _ => .jmpf
  | .jmpb _ => .jmpb
  | .eq _ _ _ => .eq
  | .jeq _ => .jeq
  | .jneq _ => .jneq
  | .aloc _ => .aloc
  | .inc _ => .inc
  | .dec _ => .dec
  | .igl => .igl

/-! ### The decoder -/

/-- Why a byte list holds no whole instruction at its front. -/
inductive DecodeError where
  /-- No opcode byte: the list is empty. -/
  | noOpcode
  /-- An operand byte is missing (R125). -/
  | truncated
  deriving DecidableEq, Repr

/-- What a decoder answers: the instruction and the bytes after it, or an error by name. -/
abbrev Decoded := Except DecodeError (Instr × List Byte)

/-- "next 8 bits" (R123). -/
def next8 : List Byte → Except DecodeError (Byte × List Byte)
  | b :: rest => .ok (b, rest)
  | [] => .error .truncated

/-- "next 16 bits", big-endian: the first byte is bits 15:8 (R53, R123). -/
def next16 : List Byte → Except DecodeError (Imm16 × List Byte)
  | hi :: lo :: rest => .ok (hi ++ lo, rest)
  | _ => .error .truncated

/-- Operand consumption of format FR (R124). -/
def consumeR (mk : Byte → Instr) (bs : List Byte) : Decoded :=
  match next8 bs with
  | .ok (r, rest) => .ok (mk r, rest)
  | .error e => .error e

/-- Operand consumption of format FRI: next8, next16 (R124). -/
def consumeRI (mk : Byte → Imm16 → Instr) (bs : List Byte) : Decoded :=
  match next8 bs with
  | .error e => .error e
  | .ok (r, bs1) =>
    match next16 bs1 with
    | .ok (imm, rest) => .ok (mk r imm, rest)
    | .error e => .error e

/-- Operand consumption of formats FRRR and FRRP: three times next8 (R124). -/
def consumeRRR (mk : Byte → Byte → Byte → Instr) (bs : List Byte) : Decoded :=
  match next8 bs with
  | .error e => .error e
  | .ok (f1, bs1) =>
    match next8 bs1 with
    | .error e => .error e
    | .ok (f2, bs2) =>
      match next8 bs2 with
      | .ok (f3, rest) => .ok (mk f1 f2 f3, rest)
      | .error e => .error e

/-- Operand consumption by opcode (R124). -/
def consume : Opcode → List Byte → Decoded
  | .load, bs => consumeRI .load bs
  | .hlt, bs => .ok (.hlt, bs)
  | .add, bs => consumeRRR .add bs
  | .sub, bs => consumeRRR .sub bs
  | .mul, bs => consumeRRR .mul bs
  | .div, bs => consumeRRR .div bs
  | .jmp, bs => consumeR .jmp bs
  | .jmpf, bs => consumeR .jmpf bs
  | .jmpb, bs => consumeR .jmpb bs
  | .eq, bs => consumeRRR .eq bs
  | .jeq, bs => consumeR .jeq bs
  | .jneq, bs => consumeR .jneq bs
  | .aloc, bs => consumeR .aloc bs
  | .inc, bs => consumeR .inc bs
  | .dec, bs => consumeR .dec bs
  | .igl, bs => .ok (.igl, bs)

/-- The instruction at the front of a byte list: the opcode byte first, then its operands in the order listed
(R80, R83, R124). Total: a list that is too short is rejected by name. -/
def decode (m : OpcodeMap) : List Byte → Decoded
  | [] => .error .noOpcode
  | b :: rest => consume (opcodeOf m b) rest

/-! ### The encoder -/

/-- The bytes of an instruction, in the layout of R82; the immediate high byte first (R87). IGL is never emitted
(R85). -/
def encode (m : OpcodeMap) : Instr → Option (List Byte)
  | .load r imm => some [m.load, r, imm.extractLsb' 8 8, imm.extractLsb' 0 8]
  | .hlt => some [m.hlt]
  | .add f1 f2 f3 => some [m.add, f1, f2, f3]
  | .sub f1 f2 f3 => some [m.sub, f1, f2, f3]
  | .mul f1 f2 f3 => some [m.mul, f1, f2, f3]
  | .div f1 f2 f3 => some [m.div, f1, f2, f3]
  | .jmp r => some [m.jmp, r]
  | .jmpf r => some [m.jmpf, r]
  | .jmpb r => some [m.jmpb, r]
  | .eq s1 s2 pad => some [m.eq, s1, s2, pad]
  | .jeq r => some [m.jeq, r]
  | .jneq r => some [m.jneq, r]
  | .aloc r => some [m.aloc, r]
  | .inc r => some [m.inc, r]
  | .dec r => some [m.dec, r]
  | .igl => none

/-! ### The opcode table's numbering -/

/-- The longest instruction, in bytes (R81). -/
def maxLength : Nat := 4

/-- The bytes of a table word of `nbits` bits: bit 0 of `w` is the least significant bit of the first byte, every bit
above `nbits` is 0, and the bytes go up to the longest instruction. -/
def tableBytes (nbits w : Nat) : List Byte :=
  (List.range maxLength).map fun k => BitVec.ofNat 8 ((w % 2 ^ nbits) >>> (8 * k))

/-- The instruction the decoder reads from a table word, under the default OPCODE_MAP, on which
spec/opcode_table.json rests (R85). -/
def decodeTableWord (nbits w : Nat) : Option Instr :=
  match decode OpcodeMap.default (tableBytes nbits w) with
  | .ok (i, _) => some i
  | .error _ => none

end Sys2Proof
end

