-- ==== Sys2Proof/Machine/Fetch.lean ====
section
/-! DEFINITION. The fetch of a step (40_cycle.md rules R121 to R125) and the placing of a table word where it
fetches. -/

namespace Sys2Proof.Machine

/-- `pc ≥ P.len` (R121). -/
def State.atEnd (s : State) : Bool := s.prog.len ≤ s.pc.toNat

/-- The program bytes from pc on, up to the longest instruction: those of P[pc], P[pc+1], … that exist (R51, R80). -/
def State.fetchBytes (s : State) : List Byte :=
  (List.range maxLength).filterMap fun k => s.prog.read (s.pc.toNat + k)

/-- Fetch and decode the instruction at pc (R122, R124). Decode is pure (R133). -/
def State.fetch (s : State) : Except DecodeError Instr :=
  match decode s.build.opcodes s.fetchBytes with
  | .ok (i, _) => .ok i
  | .error e => .error e

/-- The unit able to fetch: RUNNING where a sticky stop held it, else as it was. -/
def State.unstuck (s : State) : State := if s.sticky then s.setCode .running else s

/-- Place a table word's bytes at pc (log entry 9). -/
def State.placeFetchWord (s : State) (nbits w : Nat) : State :=
  { s.unstuck with prog := s.prog.placeAll s.pc.toNat (tableBytes nbits w) }

end Sys2Proof.Machine
end

