-- ==== Sys2Proof/Machine/Cycle.lean ====
section
/-! DEFINITION. The fetch, decode and dispatch cycle (40_cycle.md). -/

namespace Sys2Proof.Machine

/-- One fetch-decode-execute (R132), in the order of checks of R131: sticky stop, end of program, then the fetch; a
missing operand byte is TRUNCATED; a whole instruction runs with status RUNNING (R122). -/
def cycle (s : State) : Result :=
  if s.sticky then .next s
  else if s.atEnd then .next s.stopAtEnd
  else
    match s.fetch with
    | .ok i => exec i (s.setCode .running)
    | .error _ => raised .truncated s

end Sys2Proof.Machine
end

