-- ==== Sys2Proof/Machine/Step.lean ====
section
/-! DEFINITION. One step of the unit, and the placing of a table word where it fetches. -/

namespace Sys2Proof.Machine

/-- One step: the cycle of 40_cycle.md rule R132 (`cycle`). -/
def step (s : State) : Host.Outcome State Fault Refusal := cycle s

/-- `s` with a table word stored where the step fetches: its bytes at pc, the program store long enough to hold them,
and no sticky stop (log entry 9). -/
def State.withFetchWord (s : State) (nbits w : Nat) : State := s.placeFetchWord nbits w

end Sys2Proof.Machine
end

