-- ==== Sys2Proof/Machine/Assembler.lean ====
section
/-! DEFINITION. The assembler, the producer of the unit's only input: its one line form, the encoding of a line, its
errors, and the reading of a line's four bytes in the assembler's own format (30_encoding.md rules R93 to R102). It is
software (R7): nothing here is part of the step. -/

namespace Sys2Proof.Assembler

open Sys2Proof

/-- A token (00_scope.md R12; R95, R96, R99). -/
inductive Token where
  /-- `Op`: an opcode. -/
  | op (o : Opcode)
  /-- `Register(index: 0–31)` (R95). -/
  | register (i : Fin 32)
  /-- `IntegerOperand`: a signed 32-bit value (R96). -/
  | integer (v : Word)
  deriving DecidableEq, Repr

/-- The assembler's instruction: an opcode token and up to three operand tokens (R98, R99). -/
structure AssemblerInstruction where
  opcode   : Token
  operand1 : Option Token
  operand2 : Option Token
  operand3 : Option Token
  deriving DecidableEq, Repr

/-- The typed errors of the assembler; none produces any bytes (R99). -/
inductive AsmError where
  /-- A parse failure: "no match at this position" (R99). -/
  | noMatch
  /-- An opcode field that is not an `Op` token (R99). -/
  | opcodeNotOp
  /-- An operand field that holds an `Op` token (R99). -/
  | operandIsOp
  /-- An `Op` token of IGL, which has no byte (R85; log entry 13). -/
  | iglHasNoByte
  deriving DecidableEq, Repr

/-! ### Parsing -/

/-- The fifteen mnemonics, lower case; `igl` is refused (R94). -/
def mnemonics : List (List Char × Opcode) :=
  [(['l', 'o', 'a', 'd'], .load), (['h', 'l', 't'], .hlt), (['a', 'd', 'd'], .add), (['s', 'u', 'b'], .sub),
   (['m', 'u', 'l'], .mul), (['d', 'i', 'v'], .div), (['j', 'm', 'p'], .jmp), (['j', 'm', 'p', 'f'], .jmpf),
   (['j', 'm', 'p', 'b'], .jmpb), (['e', 'q'], .eq), (['j', 'e', 'q'], .jeq), (['j', 'n', 'e', 'q'], .jneq),
   (['a', 'l', 'o', 'c'], .aloc), (['i', 'n', 'c'], .inc), (['d', 'e', 'c'], .dec)]

/-- The opcode a word of text names, case-sensitive (R94). -/
def opcodeNamed (cs : List Char) : Option Opcode := mnemonics.lookup cs

/-- A separator: a space or a tab (R97). -/
def isBlank (c : Char) : Bool := c == ' ' || c == '\t'

/-- Skip any blanks. -/
def skipBlanks : List Char → List Char
  | [] => []
  | c :: cs => if isBlank c then skipBlanks cs else c :: cs

/-- Skip a separator of one or more blanks (R97). -/
def separator : List Char → Option (List Char)
  | [] => none
  | c :: cs => if isBlank c then some (skipBlanks cs) else none

/-- The characters up to the next blank or line end, and the rest. -/
def takeWord : List Char → List Char × List Char
  | [] => ([], [])
  | c :: cs =>
    if isBlank c || c == '\n' then ([], c :: cs) else (c :: (takeWord cs).1, (takeWord cs).2)

/-- The value of a decimal digit. -/
def digitValue (c : Char) : Option Nat :=
  if 48 ≤ c.toNat ∧ c.toNat ≤ 57 then some (c.toNat - 48) else none

/-- The decimal digits at the front, added to a value already read. -/
def moreDigits (acc : Nat) : List Char → Nat × List Char
  | [] => (acc, [])
  | c :: cs =>
    match digitValue c with
    | some d => moreDigits (10 * acc + d) cs
    | none => (acc, c :: cs)

/-- One or more decimal digits (R93). -/
def parseDigits : List Char → Option (Nat × List Char)
  | [] => none
  | c :: cs =>
    match digitValue c with
    | some d => some (moreDigits d cs)
    | none => none

/-- A register operand: `$` and digits, of value 0 to 31 (R95). -/
def parseRegister : List Char → Option (Fin 32 × List Char)
  | '$' :: cs =>
    match parseDigits cs with
    | some (n, rest) => if h : n < 32 then some (⟨n, h⟩, rest) else none
    | none => none
  | _ => none

/-- The range check of an integer operand: signed 32-bit (R96). -/
def signed32 (n : Int) : Option Word := if s32Min ≤ n ∧ n ≤ s32Max then some (wrap32 n) else none

/-- An integer operand: `#`, an optional `-`, and digits (R93, R96). -/
def parseInteger : List Char → Option (Word × List Char)
  | '#' :: '-' :: cs =>
    match parseDigits cs with
    | some (n, rest) => (signed32 (-(n : Int))).map fun v => (v, rest)
    | none => none
  | '#' :: cs =>
    match parseDigits cs with
    | some (n, rest) => (signed32 (n : Int)).map fun v => (v, rest)
    | none => none
  | _ => none

/-- The end of a line (R93). -/
def lineEnd : List Char → Option (List Char)
  | '\n' :: cs => some cs
  | _ => none

/-- A parsed line: opcode, register, integer (R93). -/
structure Line where
  op  : Opcode
  reg : Fin 32
  int : Word
  deriving DecidableEq, Repr

/-- The one line form (R93), tokens separated by one or more blanks (R97). -/
def parseLine (cs : List Char) : Option (Line × List Char) := do
  let op ← opcodeNamed (takeWord cs).1
  let cs1 ← separator (takeWord cs).2
  let (reg, cs2) ← parseRegister cs1
  let cs3 ← separator cs2
  let (int, cs4) ← parseInteger cs3
  let rest ← lineEnd cs4
  return (⟨op, reg, int⟩, rest)

/-- A parsed line as the assembler's instruction: two operands, the third absent (R98). -/
def Line.instruction (l : Line) : AssemblerInstruction where
  opcode   := .op l.op
  operand1 := some (.register l.reg)
  operand2 := some (.integer l.int)
  operand3 := none

/-! ### Encoding -/

/-- The bytes of an operand: one for a register, two for an integer modulo 2^16, high byte first; none for an absent
operand (R98). An `Op` token is an encoding-invariant violation (R99). -/
def operandBytes : Option Token → Except AsmError (List Byte)
  | none => .ok []
  | some (.register i) => .ok [BitVec.ofNat 8 i.val]
  | some (.integer v) => .ok [v.extractLsb' 8 8, v.extractLsb' 0 8]
  | some (.op _) => .error .operandIsOp

/-- The byte of an opcode field (R98, R99). -/
def opcodeBytes (m : OpcodeMap) : Token → Except AsmError (List Byte)
  | .op o =>
    match opcodeByte m o with
    | some b => .ok [b]
    | none => .error .iglHasNoByte
  | .register _ => .error .opcodeNotOp
  | .integer _ => .error .opcodeNotOp

/-- `to_bytes`: the opcode byte, then operand1, operand2, operand3 (R98). -/
def toBytes (m : OpcodeMap) (i : AssemblerInstruction) : Except AsmError (List Byte) := do
  let b0 ← opcodeBytes m i.opcode
  let b1 ← operandBytes i.operand1
  let b2 ← operandBytes i.operand2
  let b3 ← operandBytes i.operand3
  return b0 ++ b1 ++ b2 ++ b3

/-- Lines one after the other, each parsed and encoded; blanks before a line are skipped (log entry 12). DESIGN CHOICE
(log entry 16): blanks that no line follows, after the last newline or as the whole text, are accepted and give no
bytes. `fuel` is greater than the number of lines. -/
def assembleLines (m : OpcodeMap) : Nat → List Char → Except AsmError (List Byte)
  | 0, _ => .error .noMatch
  | fuel + 1, cs =>
    match skipBlanks cs with
    | [] => .ok []
    | c :: cs' =>
      match parseLine (c :: cs') with
      | none => .error .noMatch
      | some (l, rest) => do
        let bs ← toBytes m l.instruction
        let more ← assembleLines m fuel rest
        return bs ++ more

/-- Assemble a text: the program bytes, or the first error and no bytes (R99). -/
def assemble (m : OpcodeMap) (text : List Char) : Except AsmError (List Byte) :=
  assembleLines m (text.length + 1) text

/-! ### The assembler format read back -/

/-- The four bytes of a line in the assembler's own format: `(decode(b0), b1, b2 ++ b3)` (R101). It is not how the
unit executes them (R100). -/
def readLine (m : OpcodeMap) : List Byte → Option (Opcode × Byte × Imm16)
  | [b0, b1, b2, b3] => some (opcodeOf m b0, b1, b2 ++ b3)
  | _ => none

end Sys2Proof.Assembler
end

