-- ==== Sys2Proof/Machine/HostPort.lean ====
section
/-! DEFINITION. The transaction-level host interface: the fifteen commands, one at a time, each whole before the next
(10_state.md rules R34 to R46; 92_eei_decisions.md D20, D21). The host acts only between steps: no command is part of
`step`. -/

namespace Sys2Proof.Machine

/-- The commands (R34 to R45; log entry 14 for the widths of an index and of a program address). -/
inductive Command where
  /-- RESET (R35). -/
  | reset
  /-- APPEND(b) (R36). -/
  | append (b : Byte)
  /-- STEP (R37). -/
  | step
  /-- RUN (R38). -/
  | run
  /-- REG_READ(i) (R39). -/
  | regRead (i : Nat)
  /-- REG_WRITE(i, v) (R39). -/
  | regWrite (i : Nat) (v : Word)
  /-- FLAG_READ (R40). -/
  | flagRead
  /-- FLAG_WRITE(f) (R40). -/
  | flagWrite (f : Bool)
  /-- REM_READ (R41). -/
  | remRead
  /-- PC_READ (R42). -/
  | pcRead
  /-- STATUS_READ (R43). -/
  | statusRead
  /-- HEAP_LEN_READ (R44). -/
  | heapLenRead
  /-- HEAP_READ(addr) (R44). -/
  | heapRead (addr : Word)
  /-- PROG_LEN_READ (R45). -/
  | progLenRead
  /-- PROG_READ(addr) (R45). -/
  | progRead (addr : Word)
  deriving DecidableEq, Repr

/-- The responses. -/
inductive Response where
  /-- RESET returns nothing (R35). -/
  | nothing
  /-- OK: a write was made (R36; log entry 11 for FLAG_WRITE). -/
  | ok
  /-- CMD_ERROR: a response to the host only (R46). -/
  | cmdError
  /-- CONTINUE (R37, R129). -/
  | continues
  /-- STOP(code), the value of status.code (R37, R129). -/
  | stop (code : BitVec 4)
  /-- A 32-bit value read. -/
  | word (v : Word)
  /-- An 8-bit value read. -/
  | byte (v : Byte)
  /-- The flag read. -/
  | bit (f : Bool)
  deriving DecidableEq, Repr

/-- The result a step returns, read from the state it leaves (R37, R129). -/
def stepResponse (s : State) : Response :=
  if s.code = stopBits .running then .continues else .stop s.code

/-- STEP (R37): the state after one step and the step's result. A fault or a refusal of the model, of which there is
none (log entry 3), would answer none. -/
def serveStep (s : State) : Option (State × Response) :=
  match step s with
  | .next t => some (t, stepResponse t)
  | .fault _ => none
  | .refused _ => none

/-- RUN under fuel (R38; 92_eei_decisions.md D26; log entry 4): steps until one reports a stop; none where `fuel` steps report
none. A program that never stops answers none for every fuel (R278). -/
def serveRun : Nat → State → Option (State × Response)
  | 0, _ => none
  | fuel + 1, s =>
    match serveStep s with
    | some (t, .continues) => serveRun fuel t
    | other => other

/-- A byte read at an address, or CMD_ERROR where it does not exist (R44, R45). -/
def readResponse (m : Memory) (addr : Word) : Response :=
  match m.read addr.toNat with
  | some b => .byte b
  | none => .cmdError

/-- APPEND (R36): legal in any status; CMD_ERROR with no change where the program store is full. -/
def serveAppend (b : Byte) (s : State) : State × Response :=
  if s.prog.len < s.build.progMax then (s.setProg (s.prog.append b), .ok) else (s, .cmdError)

/-- REG_READ (R39). -/
def serveRegRead (i : Nat) (s : State) : State × Response :=
  if h : i < 32 then (s, .word (s.getReg ⟨i, h⟩)) else (s, .cmdError)

/-- REG_WRITE (R39): legal in any status; it never clears a stop (R247). -/
def serveRegWrite (i : Nat) (v : Word) (s : State) : State × Response :=
  if h : i < 32 then (s.setReg ⟨i, h⟩ v, .ok) else (s, .cmdError)

/-- STATUS_READ (R43): the reserved bits 7:4 read as zero (R28). -/
def statusByte (s : State) : Byte := s.code.setWidth 8

/-- One host command: the state after it and the response. `fuel` bounds RUN alone; the answer none says that RUN has
not returned within it. -/
def serve (fuel : Nat) (c : Command) (s : State) : Option (State × Response) :=
  match c with
  | .reset => some (s.afterReset, .nothing)
  | .append b => some (serveAppend b s)
  | .step => serveStep s
  | .run => serveRun fuel s
  | .regRead i => some (serveRegRead i s)
  | .regWrite i v => some (serveRegWrite i v s)
  | .flagRead => some (s, .bit s.eq)
  | .flagWrite f => some (s.setEq f, .ok)
  | .remRead => some (s, .word s.rem)
  | .pcRead => some (s, .word s.pc)
  | .statusRead => some (s, .byte (statusByte s))
  | .heapLenRead => some (s, .word (BitVec.ofNat 32 s.heap.len))
  | .heapRead addr => some (s, readResponse s.heap addr)
  | .progLenRead => some (s, .word (BitVec.ofNat 32 s.prog.len))
  | .progRead addr => some (s, readResponse s.prog addr)

/-- A sequence of commands, one after the other (R34), with the responses in order. -/
def serveAll (fuel : Nat) : List Command → State → Option (State × List Response)
  | [], s => some (s, [])
  | c :: cs, s =>
    match serve fuel c s with
    | none => none
    | some (t, r) =>
      match serveAll fuel cs t with
      | none => none
      | some (u, rs) => some (u, r :: rs)

end Sys2Proof.Machine
end

