-- ==== Sys2Proof/Safety.lean ====
section
/-! DEFINITION. What a legal state is, and the terms in which the statements speak of a step: the bytes at pc, the
registers an instruction reads and writes, the exact result of an arithmetic instruction, a run of steps. -/

namespace Sys2Proof.Machine

/-- A legal state: the build's parameters in range (R8), both memories in canonical form and within their capacities
(R29, R30), no heap byte other than 0x00 (R231, R233), a stop code the spec defines with the reserved status bits zero
(R28, R242). The pc may be any 32-bit value (R25). -/
abbrev State.wf (s : State) : Prop :=
  s.build.wf ∧ s.prog.wf ∧ s.heap.wf ∧ s.prog.len ≤ s.build.progMax ∧ s.heap.len ≤ s.build.heapMax ∧
    s.heap.cells = [] ∧ s.status.toNat ≤ 12

/-- A safe end of a step: RUNNING, HALTED or END_OF_PROGRAM, neither an error nor a fault (R244). -/
abbrev State.safe (s : State) : Prop := s.code.toNat ≤ 2

/-- `P[pc + k]`, for the bytes that exist. -/
def progByte (s : State) (k : Nat) : Byte := cellsRead s.prog.cells (s.pc.toNat + k)

/-- The opcode at pc (R122). -/
def opcodeAtPc (s : State) : Opcode := opcodeOf s.build.opcodes (progByte s 0)

/-- The instruction whose opcode byte and operand bytes stand at pc, read off the layout of R82. -/
def instrAtPc (s : State) : Instr :=
  match opcodeAtPc s with
  | .load => .load (progByte s 1) (progByte s 2 ++ progByte s 3)
  | .hlt => .hlt
  | .add => .add (progByte s 1) (progByte s 2) (progByte s 3)
  | .sub => .sub (progByte s 1) (progByte s 2) (progByte s 3)
  | .mul => .mul (progByte s 1) (progByte s 2) (progByte s 3)
  | .div => .div (progByte s 1) (progByte s 2) (progByte s 3)
  | .jmp => .jmp (progByte s 1)
  | .jmpf => .jmpf (progByte s 1)
  | .jmpb => .jmpb (progByte s 1)
  | .eq => .eq (progByte s 1) (progByte s 2) (progByte s 3)
  | .jeq => .jeq (progByte s 1)
  | .jneq => .jneq (progByte s 1)
  | .aloc => .aloc (progByte s 1)
  | .inc => .inc (progByte s 1)
  | .dec => .dec (progByte s 1)
  | .igl => .igl

/-- How a step treats the opcode `op`, of length n and default byte b: with an operand byte missing it raises
TRUNCATED (R125); otherwise it is the meaning of `mk s`, the instruction with the operand bytes at pc, in the state
with status RUNNING (R122, R127). -/
def FetchesAs (op : Opcode) (b : Byte) (n : Nat) (mk : State → Instr) : Prop :=
  opcodeByte OpcodeMap.default op = some b ∧
  ∀ s : State, s.sticky = false → s.pc.toNat < s.prog.len → opcodeAtPc s = op →
    (s.prog.len < s.pc.toNat + n → step s = .next { s with status := 0x04#8 }) ∧
    (s.pc.toNat + n ≤ s.prog.len → step s = exec (mk s) { s with status := 0x00#8 })

/-- The register fields an instruction reads (R21). -/
def readFields (o : ArithOrder) : Instr → List Byte
  | .load _ _ => []
  | .hlt => []
  | .add f1 f2 f3 => if o = .srcSrcDst then [f1, f2] else [f2, f3]
  | .sub f1 f2 f3 => if o = .srcSrcDst then [f1, f2] else [f2, f3]
  | .mul f1 f2 f3 => if o = .srcSrcDst then [f1, f2] else [f2, f3]
  | .div f1 f2 f3 => if o = .srcSrcDst then [f1, f2] else [f2, f3]
  | .jmp r => [r]
  | .jmpf r => [r]
  | .jmpb r => [r]
  | .eq s1 s2 _ => [s1, s2]
  | .jeq r => [r]
  | .jneq r => [r]
  | .aloc r => [r]
  | .inc r => [r]
  | .dec r => [r]
  | .igl => []

/-- The register field an instruction writes (R21). -/
def writeField (o : ArithOrder) : Instr → Option Byte
  | .load r _ => some r
  | .hlt => none
  | .add f1 _ f3 => if o = .srcSrcDst then some f3 else some f1
  | .sub f1 _ f3 => if o = .srcSrcDst then some f3 else some f1
  | .mul f1 _ f3 => if o = .srcSrcDst then some f3 else some f1
  | .div f1 _ f3 => if o = .srcSrcDst then some f3 else some f1
  | .jmp _ => none
  | .jmpf _ => none
  | .jmpb _ => none
  | .eq _ _ _ => none
  | .jeq _ => none
  | .jneq _ => none
  | .aloc _ => none
  | .inc r => some r
  | .dec r => some r
  | .igl => none

/-- `x[b]` as s32, for a legal register field b. -/
def signedReg (s : State) (b : Byte) : Int := if h : b.toNat < 32 then s.regs[b.toNat].toInt else 0

/-- `x[b]` as u32, for a legal register field b. -/
def unsignedReg (s : State) (b : Byte) : Nat := if h : b.toNat < 32 then s.regs[b.toNat].toNat else 0

/-- The exact result e of ADD, SUB, MUL, INC and DEC, with the field it is written to (R172 to R174, R176, R177). -/
def exactResult (s : State) : Instr → Option (Byte × Int)
  | .add f1 f2 f3 =>
    match s.build.arithOrder with
    | .srcSrcDst => some (f3, signedReg s f1 + signedReg s f2)
    | .dstSrcSrc => some (f1, signedReg s f2 + signedReg s f3)
  | .sub f1 f2 f3 =>
    match s.build.arithOrder with
    | .srcSrcDst => some (f3, signedReg s f1 - signedReg s f2)
    | .dstSrcSrc => some (f1, signedReg s f2 - signedReg s f3)
  | .mul f1 f2 f3 =>
    match s.build.arithOrder with
    | .srcSrcDst => some (f3, signedReg s f1 * signedReg s f2)
    | .dstSrcSrc => some (f1, signedReg s f2 * signedReg s f3)
  | .inc r => some (r, signedReg s r + 1)
  | .dec r => some (r, signedReg s r - 1)
  | .load _ _ => none
  | .hlt => none
  | .div _ _ _ => none
  | .jmp _ => none
  | .jmpf _ => none
  | .jmpb _ => none
  | .eq _ _ _ => none
  | .jeq _ => none
  | .jneq _ => none
  | .aloc _ => none
  | .igl => none

/-- The exact pc after an instruction of address a that completes (R24). -/
def pcAfter (s : State) : Instr → Nat
  | .jmp r => unsignedReg s r
  | .jmpf r => s.pc.toNat + 2 + unsignedReg s r
  | .jmpb r => s.pc.toNat + 2 - unsignedReg s r
  | .jeq r => if s.eq then unsignedReg s r else s.pc.toNat + 2
  | .jneq r => if s.eq then s.pc.toNat + 2 else unsignedReg s r
  | .load _ _ => s.pc.toNat + 4
  | .add _ _ _ => s.pc.toNat + 4
  | .sub _ _ _ => s.pc.toNat + 4
  | .mul _ _ _ => s.pc.toNat + 4
  | .div _ _ _ => s.pc.toNat + 4
  | .eq _ _ _ => s.pc.toNat + 4
  | .aloc _ => s.pc.toNat + 2
  | .inc _ => s.pc.toNat + 2
  | .dec _ => s.pc.toNat + 2
  | .hlt => s.pc.toNat + 1
  | .igl => s.pc.toNat + 1

/-- k steps from s to t, each of which answers CONTINUE (R37, R38). -/
def continuesTo : Nat → State → State → Prop
  | 0, s, t => s = t
  | k + 1, s, t => ∃ u : State, step s = .next u ∧ u.code = 0#4 ∧ continuesTo k u t

end Sys2Proof.Machine
end

