-- ==== Sys2Proof/Certificates/Slice0/Obligations.lean ====
section
/-! DEFINITION. The statements for the provers. Each docstring names the rule it formalises; a `DESIGN CHOICE` or
`DEDUCED` point names its log entry. Nothing is proved here. -/

open Sys2Proof Sys2Proof.Machine

/-! ### Encoding -/

/-- 30_encoding.md sections 1, 2: under every injective OPCODE_MAP, every instruction but IGL has bytes of its length
(R81), and the decoder reads exactly it from them, whatever bytes follow. IGL has none (R85). -/
def Obligations.DecodeEncodeRoundTrip : Prop :=
  ∀ m : OpcodeMap, m.wf → ∀ i : Instr,
    (i = .igl → encode m i = none) ∧
    (i ≠ .igl → ∃ bs : List Byte, encode m i = some bs ∧ bs.length = opcodeLength i.opcode ∧
      ∀ rest : List Byte, decode m (bs ++ rest) = .ok (i, rest))

/-- The other direction (derived from R82, R83): what the decoder reads, the encoder writes back, byte for byte; only
IGL stands for more than one byte. -/
def Obligations.EncodeDecodeRoundTrip : Prop :=
  ∀ m : OpcodeMap, ∀ (bs rest : List Byte) (i : Instr), decode m bs = .ok (i, rest) →
    (i ≠ .igl → ∃ front : List Byte, encode m i = some front ∧ bs = front ++ rest) ∧
    (i = .igl → ∃ b : Byte, bs = b :: rest ∧ b ∉ m.bytes)

/-- R92: `encode(op)` is OPCODE_MAP(op) on the fifteen real opcodes, and decode(encode(op)) = op. -/
def Obligations.OpcodeByteRoundTrip : Prop :=
  ∀ m : OpcodeMap, m.wf →
    [Opcode.load, .hlt, .add, .sub, .mul, .div, .jmp, .jmpf, .jmpb, .eq, .jeq, .jneq, .aloc, .inc, .dec].map
      (opcodeByte m) = m.bytes.map some ∧
    opcodeByte m .igl = none ∧
    ∀ op : Opcode, op ≠ .igl → ∃ b : Byte, opcodeByte m op = some b ∧ opcodeOf m b = op

/-- R83: decode is total; each real opcode has exactly one byte; every other byte is IGL; decoding an unknown byte
does not fail, and executing it stops with ILLEGAL_OPCODE. -/
def Obligations.OpcodeDecodeTotal : Prop :=
  ∀ m : OpcodeMap, m.wf →
    (∀ op : Opcode, op ≠ .igl → ∃ b : Byte, ∀ c : Byte, opcodeOf m c = op ↔ c = b) ∧
    (∀ b : Byte, opcodeOf m b = .igl ↔ b ∉ m.bytes) ∧
    (∀ (b : Byte) (rest : List Byte), b ∉ m.bytes → decode m (b :: rest) = .ok (.igl, rest)) ∧
    (∀ s : State, ∃ t : State, exec .igl s = .next t ∧ t.code = 3#4)

/-- The default OPCODE_MAP and the formats, byte by byte (the table of R84, the spec's decision D1). -/
def Obligations.DefaultOpcodeTable : Prop :=
  ([0x00#8, 0x01#8, 0x02#8, 0x03#8, 0x04#8, 0x05#8, 0x06#8, 0x07#8, 0x08#8, 0x09#8, 0x0A#8, 0x0B#8, 0x0C#8, 0x0D#8,
      0x0E#8].map fun b => (opcodeOf OpcodeMap.default b, opcodeFormat (opcodeOf OpcodeMap.default b))) =
    [(.load, .fri), (.hlt, .f0), (.add, .frrr), (.sub, .frrr), (.mul, .frrr), (.div, .frrr), (.jmp, .fr), (.jmpf, .fr),
      (.jmpb, .fr), (.eq, .frrp), (.jeq, .fr), (.jneq, .fr), (.aloc, .fr), (.inc, .fr), (.dec, .fr)] ∧
  (∀ b : Byte, 0x0F#8 ≤ b → opcodeOf OpcodeMap.default b = .igl ∧ opcodeFormat .igl = .f0)

/-- The lengths of R81: the opcode byte alone determines the length, and an instruction consumes exactly that many
bytes. -/
def Obligations.InstructionLengths : Prop :=
  (∀ op : Opcode, opcodeLength op = if op ∈ [Opcode.hlt, .igl] then 1
    else if op ∈ [Opcode.jmp, .jmpf, .jmpb, .jeq, .jneq, .aloc, .inc, .dec] then 2 else 4) ∧
  ∀ (m : OpcodeMap) (b : Byte) (bs rest : List Byte) (i : Instr), decode m (b :: bs) = .ok (i, rest) →
    (b :: bs).length = opcodeLength (opcodeOf m b) + rest.length

/-- Words written out from the layouts of R82 under the default map decode to the instruction they stand for (a sanity
statement; one word of each format and family). -/
def Obligations.WrittenWordsDecode : Prop :=
  decode OpcodeMap.default [0x00#8, 0x05#8, 0x12#8, 0x34#8] = .ok (.load 0x05#8 0x1234#16, []) ∧
  decode OpcodeMap.default [0x01#8] = .ok (.hlt, []) ∧
  decode OpcodeMap.default [0x05#8, 0x01#8, 0x02#8, 0x03#8] = .ok (.div 0x01#8 0x02#8 0x03#8, []) ∧
  decode OpcodeMap.default [0x08#8, 0x1F#8] = .ok (.jmpb 0x1F#8, []) ∧
  decode OpcodeMap.default [0x09#8, 0x04#8, 0x05#8, 0xFF#8] = .ok (.eq 0x04#8 0x05#8 0xFF#8, []) ∧
  decode OpcodeMap.default [0x0C#8, 0x07#8] = .ok (.aloc 0x07#8, []) ∧
  decode OpcodeMap.default [0x80#8] = .ok (.igl, [])

/-! ### The step -/

/-- A step runs the decoded instruction (derived from R122, R127): where the unit may step, pc is inside the program
and the bytes from pc on decode to i, the step is exec of i in the state with status RUNNING, and nothing else. -/
def Obligations.StepRunsDecodedInstruction : Prop :=
  ∀ (s : State) (i : Instr) (rest : List Byte), s.sticky = false → s.pc.toNat < s.prog.len →
    decode s.build.opcodes s.fetchBytes = .ok (i, rest) →
    step s = exec i { s with status := 0x00#8 }

/-- R132: the whole step, case by case in the order of the pseudocode, with the lengths and bytes read at pc, and the
result it returns. That every stop is a next state of the model is log entry 3. -/
def Obligations.StepIsThePseudocode : Prop :=
  ∀ s : State,
    (∃ t : State, serveStep s = some (t, if t.code = 0#4 then .continues else .stop t.code)) ∧
    if s.code ≠ 0#4 ∧ s.code ≠ 2#4 then step s = .next s
    else if s.prog.len ≤ s.pc.toNat then step s = .next { s with status := 0x02#8 }
    else if opcodeAtPc s = .hlt then step s = .next { s with pc := s.pc + 1#32, status := 0x01#8 }
    else if opcodeAtPc s = .igl then step s = .next { s with pc := s.pc + 1#32, status := 0x03#8 }
    else if s.prog.len < s.pc.toNat + opcodeLength (opcodeAtPc s) then step s = .next { s with status := 0x04#8 }
    else if (instrAtPc s).regFields.any (fun b => 31 < b.toNat) then step s = .next { s with status := 0x05#8 }
    else step s = exec (instrAtPc s) { s with status := 0x00#8 }

/-- R120 (the spec's decision D10): HALTED, ILLEGAL_OPCODE and the faults are sticky; the step changes nothing and
returns STOP(code). From RUNNING and END_OF_PROGRAM the step goes on: it answers END_OF_PROGRAM at the end and
otherwise what it answers from RUNNING. -/
def Obligations.StickyStopChangesNothing : Prop :=
  ∀ s : State,
    (s.code = 1#4 ∨ s.code = 3#4 ∨ (4 ≤ s.code.toNat ∧ s.code.toNat ≤ 12) →
      step s = .next s ∧ serveStep s = some (s, .stop s.code)) ∧
    (s.code = 0#4 ∨ s.code = 2#4 → step s = step { s with status := 0x00#8 })

/-- R121 (its last clause is the spec's decision D10): at the end of the program the step sets END_OF_PROGRAM and
nothing else; END_OF_PROGRAM is not sticky: with pc < P.len again, the next step executes the instruction at pc. -/
def Obligations.EndOfProgramStop : Prop :=
  ∀ s : State,
    (s.sticky = false → s.prog.len ≤ s.pc.toNat →
      serveStep s = some ({ s with status := 0x02#8 }, .stop 2#4)) ∧
    (s.code = 2#4 → s.pc.toNat + opcodeLength (opcodeAtPc s) ≤ s.prog.len →
      step s = exec (instrAtPc s) { s with status := 0x00#8 })

/-- R125 (the spec's decisions D9, D14): an operand byte missing raises TRUNCATED for every opcode but HLT and IGL; no
other step raises it. -/
def Obligations.TruncatedFault : Prop :=
  ∀ (s t : State), s.sticky = false → s.pc.toNat < s.prog.len → step s = .next t →
    (t.code = 4#4 ↔ opcodeAtPc s ≠ .hlt ∧ opcodeAtPc s ≠ .igl ∧
      s.prog.len < s.pc.toNat + opcodeLength (opcodeAtPc s)) ∧
    (t.code = 4#4 → t = { s with status := 0x04#8 })

/-- R126: a checked register field above 31 raises REG_INDEX before anything is read or written, whatever else is
wrong; no other instruction raises it; the EQ pad byte is not checked. -/
def Obligations.RegIndexFault : Prop :=
  (∀ (i : Instr) (s : State), (∃ b ∈ i.regFields, 31 < b.toNat) → exec i s = .next { s with status := 0x05#8 }) ∧
  (∀ (i : Instr) (s t : State), s.code ≠ 5#4 → (∀ b ∈ i.regFields, b.toNat ≤ 31) → exec i s = .next t →
    t.code ≠ 5#4) ∧
  (∀ (s1 s2 p q : Byte) (s : State), exec (.eq s1 s2 p) s = exec (.eq s1 s2 q) s)

/-- Every step of every state answers a next state (derived from R240): that every stop and fault of the spec is a
next state of the model, which has no fault or refusal of its own, is the model's choice, log entry 3 (DEDUCED). -/
def Obligations.StepAlwaysAnswersNext : Prop :=
  ∀ s : State, ∃ t : State, step s = .next t

/-- R37, R129: STEP runs one step and returns CONTINUE exactly if the code after it is RUNNING, else STOP(code). That
every step answers a next state is log entry 3. -/
def Obligations.StepCommandResult : Prop :=
  ∀ (fuel : Nat) (s : State), ∃ t : State, step s = .next t ∧
    ((t.code = 0#4 ∧ serve fuel .step s = some (t, .continues)) ∨
      (t.code ≠ 0#4 ∧ serve fuel .step s = some (t, .stop t.code)))

/-- R130: from a state that may step, the step stops exactly by END_OF_PROGRAM at pc ≥ P.len, HALTED at HLT,
ILLEGAL_OPCODE at IGL, or a fault code of R241; otherwise it goes on RUNNING. -/
def Obligations.StepStopsExactlyWhen : Prop :=
  ∀ s t : State, s.sticky = false → step s = .next t →
    (t.code = 2#4 ↔ s.prog.len ≤ s.pc.toNat) ∧
    (t.code = 1#4 ↔ s.pc.toNat < s.prog.len ∧ opcodeAtPc s = .hlt) ∧
    (t.code = 3#4 ↔ s.pc.toNat < s.prog.len ∧ opcodeAtPc s = .igl) ∧
    (t.code ≠ 0#4 → t.code ≠ 1#4 → t.code ≠ 2#4 → t.code ≠ 3#4 → 4 ≤ t.code.toNat ∧ t.code.toNat ≤ 12)

/-- R243 (the spec's decision D8): a faulting step differs from the state before it only in status, keeps pc at the
opcode byte, and returns STOP of the cause. -/
def Obligations.FaultsArePrecise : Prop :=
  ∀ s t : State, s.sticky = false → step s = .next t → 4 ≤ t.code.toNat →
    t = { s with status := t.code.setWidth 8 } ∧ serveStep s = some (t, .stop t.code)

/-- R241 (the causes it adds are the spec's decisions D4, D6, D12, D17; the numbers D7): which instruction raises
which fault, and exactly when, on legal register fields and a state that is RUNNING. -/
def Obligations.FaultTable : Prop :=
  ∀ (i : Instr) (s t : State), s.status = 0x00#8 → i.regsLegal = true → exec i s = .next t →
    (t.code = 6#4 ↔ ∃ f1 f2 f3, i = .div f1 f2 f3 ∧
      signedReg s (if s.build.arithOrder = .srcSrcDst then f2 else f3) = 0) ∧
    (t.code = 7#4 ↔ ∃ f1 f2 f3, i = .div f1 f2 f3 ∧
      signedReg s (if s.build.arithOrder = .srcSrcDst then f1 else f2) = s32Min ∧
      signedReg s (if s.build.arithOrder = .srcSrcDst then f2 else f3) = -1) ∧
    (t.code = 8#4 ↔ s.build.arithOverflow = .fault ∧ ∃ d e, exactResult s i = some (d, e) ∧
      (e < s32Min ∨ s32Max < e)) ∧
    (t.code = 9#4 ↔ ∃ r, i = .jmpf r ∧ 4294967295 < s.pc.toNat + 2 + unsignedReg s r) ∧
    (t.code = 10#4 ↔ ∃ r, i = .jmpb r ∧ s.pc.toNat + 2 < unsignedReg s r) ∧
    (t.code = 11#4 ↔ ∃ r, i = .aloc r ∧ signedReg s r < 0) ∧
    (t.code = 12#4 ↔ ∃ r, i = .aloc r ∧ 0 ≤ signedReg s r ∧
      (s.build.heapMax : Int) < s.heap.len + signedReg s r) ∧
    t.code ≠ 2#4 ∧ t.code ≠ 4#4 ∧ t.code ≠ 5#4 ∧ t.code.toNat ≤ 12

/-- R244: HALTED and ILLEGAL_OPCODE leave pc = a + 1 (exact in a legal state), END_OF_PROGRAM leaves pc unchanged. -/
def Obligations.NonFaultStopsPc : Prop :=
  ∀ s t : State, s.wf → s.sticky = false → step s = .next t →
    (t.code = 1#4 ∨ t.code = 3#4 → t.pc.toNat = s.pc.toNat + 1) ∧ (t.code = 2#4 → t.pc = s.pc)

/-! ### The instructions -/

/-- R150, LOAD. -/
def Obligations.LoadRule : Prop :=
  FetchesAs .load 0x00#8 4 (fun s => .load (progByte s 1) (progByte s 2 ++ progByte s 3)) ∧
  ∀ (r : Byte) (imm : Imm16) (s : State),
    (∀ i : Fin 32, r.toNat = i.val →
      exec (.load r imm) s = .next { s with regs := s.regs.set i (BitVec.ofNat 32 imm.toNat), pc := s.pc + 4#32 }) ∧
    (31 < r.toNat → exec (.load r imm) s = .next { s with status := 0x05#8 })

/-- R160, HLT. -/
def Obligations.HltRule : Prop :=
  FetchesAs .hlt 0x01#8 1 (fun _ => .hlt) ∧
  (∀ s : State, s.sticky = false → s.pc.toNat < s.prog.len → opcodeAtPc s = .hlt →
    serveStep s = some ({ s with pc := s.pc + 1#32, status := 0x01#8 }, .stop 1#4)) ∧
  ∀ s : State,
    exec .hlt s = .next { s with pc := s.pc + 1#32, status := 0x01#8 } ∧
    ∀ t : State, exec .hlt s = .next t → serveStep t = some (t, .stop 1#4)

/-- R161, IGL: any byte outside OPCODE_MAP, the bytes 0x0F to 0xFF by default. -/
def Obligations.IglRule : Prop :=
  (∀ b : Byte, opcodeOf OpcodeMap.default b = .igl ↔ 0x0F#8 ≤ b) ∧
  (∀ s : State, s.sticky = false → s.pc.toNat < s.prog.len → progByte s 0 ∉ s.build.opcodes.bytes →
    step s = exec .igl { s with status := 0x00#8 } ∧
      serveStep s = some ({ s with pc := s.pc + 1#32, status := 0x03#8 }, .stop 3#4)) ∧
  ∀ s : State,
    exec .igl s = .next { s with pc := s.pc + 1#32, status := 0x03#8 } ∧
    ∀ t : State, exec .igl s = .next t → serveStep t = some (t, .stop 3#4)

/-- R170 with R172 to R174, ADD, SUB, MUL: the roles of the bytes in both orders, the written register, everything
else unchanged. The value is 32-bit wrapping arithmetic where the result is in range or ARITH_OVERFLOW = wrap, and
ARITH_OVERFLOW is raised otherwise. -/
def Obligations.AddSubMulRule : Prop :=
  FetchesAs .add 0x02#8 4 (fun s => .add (progByte s 1) (progByte s 2) (progByte s 3)) ∧
  FetchesAs .sub 0x03#8 4 (fun s => .sub (progByte s 1) (progByte s 2) (progByte s 3)) ∧
  FetchesAs .mul 0x04#8 4 (fun s => .mul (progByte s 1) (progByte s 2) (progByte s 3)) ∧
  ∀ (i : Instr) (f1 f2 f3 : Byte) (f : Int → Int → Int) (g : Word → Word → Word),
    (i = .add f1 f2 f3 ∧ f = (fun a b => a + b) ∧ g = (fun a b => a + b)) ∨
      (i = .sub f1 f2 f3 ∧ f = (fun a b => a - b) ∧ g = (fun a b => a - b)) ∨
      (i = .mul f1 f2 f3 ∧ f = (fun a b => a * b) ∧ g = (fun a b => a * b)) →
    ∀ s : State,
      (∀ i1 i2 i3 s1 s2 d : Fin 32, f1.toNat = i1.val → f2.toNat = i2.val → f3.toNat = i3.val →
        (s.build.arithOrder = .srcSrcDst → s1 = i1 ∧ s2 = i2 ∧ d = i3) →
        (s.build.arithOrder = .dstSrcSrc → d = i1 ∧ s1 = i2 ∧ s2 = i3) →
        ((s.build.arithOverflow = .wrap ∨
            (s32Min ≤ f s.regs[s1].toInt s.regs[s2].toInt ∧ f s.regs[s1].toInt s.regs[s2].toInt ≤ s32Max)) →
          exec i s = .next { s with regs := s.regs.set d (g s.regs[s1] s.regs[s2]), pc := s.pc + 4#32 }) ∧
        (s.build.arithOverflow = .fault →
          ¬(s32Min ≤ f s.regs[s1].toInt s.regs[s2].toInt ∧ f s.regs[s1].toInt s.regs[s2].toInt ≤ s32Max) →
          exec i s = .next { s with status := 0x08#8 })) ∧
      (31 < f1.toNat ∨ 31 < f2.toNat ∨ 31 < f3.toNat → exec i s = .next { s with status := 0x05#8 })

/-- R171 (the spec's decision D4), the overflow law of ADD, SUB, MUL, INC and DEC: the written value is the exact
result where it fits s32; else, under wrap, the s32 value congruent to it modulo 2^32, and under fault ARITH_OVERFLOW
with no register written. -/
def Obligations.OverflowLaw : Prop :=
  ∀ (i : Instr) (s : State) (b : Byte) (e : Int) (d : Fin 32), i.regsLegal = true →
    exactResult s i = some (b, e) → b.toNat = d.val →
    (s32Min ≤ e ∧ e ≤ s32Max → ∃ t : State, exec i s = .next t ∧ t.regs[d].toInt = e ∧ t.status = s.status) ∧
    (¬(s32Min ≤ e ∧ e ≤ s32Max) → s.build.arithOverflow = .wrap →
      ∃ t : State, exec i s = .next t ∧ (t.regs[d].toInt - e) % 4294967296 = 0 ∧ t.status = s.status) ∧
    (¬(s32Min ≤ e ∧ e ≤ s32Max) → s.build.arithOverflow = .fault →
      exec i s = .next { s with status := 0x08#8 })

/-- R175 (the spec's decisions D5, D6), DIV: DIV_BY_ZERO, DIV_OVERFLOW, or the quotient rounded toward zero and the
remainder's pattern. -/
def Obligations.DivRule : Prop :=
  FetchesAs .div 0x05#8 4 (fun s => .div (progByte s 1) (progByte s 2) (progByte s 3)) ∧
  ∀ (f1 f2 f3 : Byte) (s : State),
    (∀ i1 i2 i3 s1 s2 d : Fin 32, f1.toNat = i1.val → f2.toNat = i2.val → f3.toNat = i3.val →
      (s.build.arithOrder = .srcSrcDst → s1 = i1 ∧ s2 = i2 ∧ d = i3) →
      (s.build.arithOrder = .dstSrcSrc → d = i1 ∧ s1 = i2 ∧ s2 = i3) →
      (s.regs[s2].toInt = 0 → exec (.div f1 f2 f3) s = .next { s with status := 0x06#8 }) ∧
      (s.regs[s1].toInt = s32Min → s.regs[s2].toInt = -1 →
        exec (.div f1 f2 f3) s = .next { s with status := 0x07#8 }) ∧
      (s.regs[s2].toInt ≠ 0 → ¬(s.regs[s1].toInt = s32Min ∧ s.regs[s2].toInt = -1) →
        ∃ q r : Word, q.toInt = s.regs[s1].toInt.tdiv s.regs[s2].toInt ∧
          r.toInt = s.regs[s1].toInt - q.toInt * s.regs[s2].toInt ∧
          exec (.div f1 f2 f3) s = .next { s with regs := s.regs.set d q, rem := r, pc := s.pc + 4#32 })) ∧
    (31 < f1.toNat ∨ 31 < f2.toNat ∨ 31 < f3.toNat →
      exec (.div f1 f2 f3) s = .next { s with status := 0x05#8 })

/-- R178 (derived in the spec from R175): for every legal pair, the law of quotient and remainder; and the table's
rows. -/
def Obligations.DivLaws : Prop :=
  (∀ (f1 f2 f3 : Byte) (i1 i2 i3 : Fin 32) (s : State), s.build.arithOrder = .srcSrcDst →
    f1.toNat = i1.val → f2.toNat = i2.val → f3.toNat = i3.val →
    s.regs[i2].toInt ≠ 0 → ¬(s.regs[i1].toInt = s32Min ∧ s.regs[i2].toInt = -1) →
    ∃ t : State, exec (.div f1 f2 f3) s = .next t ∧
      s.regs[i1].toInt = t.regs[i3].toInt * s.regs[i2].toInt + t.rem.toInt ∧
      t.rem.toInt.natAbs < s.regs[i2].toInt.natAbs ∧
      (t.rem.toInt = 0 ∨ (0 < t.rem.toInt ↔ 0 < s.regs[i1].toInt))) ∧
  (∀ (s : State) (row : Int × Int × Int × Word), s.build.arithOrder = .srcSrcDst →
    row ∈ ([(7, 2, 3, 0x00000001#32), (-7, 2, -3, 0xFFFFFFFF#32), (7, -2, -3, 0x00000001#32),
      (-7, -2, 3, 0xFFFFFFFF#32), (6, 3, 2, 0x00000000#32), (0, 5, 0, 0x00000000#32), (5, 7, 0, 0x00000005#32),
      (-5, 7, 0, 0xFFFFFFFB#32), (-2147483648, 1, -2147483648, 0x00000000#32),
      (-2147483648, 2, -1073741824, 0x00000000#32), (2147483647, -1, -2147483647, 0x00000000#32)] :
        List (Int × Int × Int × Word)) →
    s.regs[0].toInt = row.1 → s.regs[1].toInt = row.2.1 →
    ∃ t : State, exec (.div 0x00#8 0x01#8 0x02#8) s = .next t ∧ t.regs[2].toInt = row.2.2.1 ∧ t.rem = row.2.2.2) ∧
  (∀ s : State, s.build.arithOrder = .srcSrcDst →
    ((s.regs[0].toInt = s32Min ∧ s.regs[1].toInt = -1 →
        exec (.div 0x00#8 0x01#8 0x02#8) s = .next { s with status := 0x07#8 }) ∧
      (s.regs[1].toInt = 0 → exec (.div 0x00#8 0x01#8 0x02#8) s = .next { s with status := 0x06#8 })))

/-- R176 and R177, INC and DEC. -/
def Obligations.IncDecRule : Prop :=
  FetchesAs .inc 0x0D#8 2 (fun s => .inc (progByte s 1)) ∧
  FetchesAs .dec 0x0E#8 2 (fun s => .dec (progByte s 1)) ∧
  ∀ (r : Byte) (s : State),
    (∀ i : Fin 32, r.toNat = i.val →
      ((s.build.arithOverflow = .wrap ∨ s.regs[i].toInt ≠ s32Max →
          exec (.inc r) s = .next { s with regs := s.regs.set i (s.regs[i] + 1#32), pc := s.pc + 2#32 }) ∧
        (s.build.arithOverflow = .fault → s.regs[i].toInt = s32Max →
          exec (.inc r) s = .next { s with status := 0x08#8 }) ∧
        (s.build.arithOverflow = .wrap ∨ s.regs[i].toInt ≠ s32Min →
          exec (.dec r) s = .next { s with regs := s.regs.set i (s.regs[i] - 1#32), pc := s.pc + 2#32 }) ∧
        (s.build.arithOverflow = .fault → s.regs[i].toInt = s32Min →
          exec (.dec r) s = .next { s with status := 0x08#8 }))) ∧
    (31 < r.toNat →
      exec (.inc r) s = .next { s with status := 0x05#8 } ∧ exec (.dec r) s = .next { s with status := 0x05#8 })

/-- R201, JMP: the target is the register's pattern, whatever it is. -/
def Obligations.JmpRule : Prop :=
  FetchesAs .jmp 0x06#8 2 (fun s => .jmp (progByte s 1)) ∧
  ∀ (r : Byte) (s : State),
    (∀ i : Fin 32, r.toNat = i.val → exec (.jmp r) s = .next { s with pc := s.regs[i] }) ∧
    (31 < r.toNat → exec (.jmp r) s = .next { s with status := 0x05#8 })

/-- R202 (the spec's decision D12), JMPF: forward from a + 2, PC_OVERFLOW where the exact sum does not fit 32 bits. -/
def Obligations.JmpfRule : Prop :=
  FetchesAs .jmpf 0x07#8 2 (fun s => .jmpf (progByte s 1)) ∧
  ∀ (r : Byte) (s : State),
    (∀ i : Fin 32, r.toNat = i.val →
      (s.pc.toNat + 2 + s.regs[i].toNat ≤ 4294967295 →
        exec (.jmpf r) s = .next { s with pc := s.pc + 2#32 + s.regs[i] }) ∧
      (4294967295 < s.pc.toNat + 2 + s.regs[i].toNat → exec (.jmpf r) s = .next { s with status := 0x09#8 })) ∧
    (31 < r.toNat → exec (.jmpf r) s = .next { s with status := 0x05#8 })

/-- R203, JMPB: backward from a + 2, JUMP_UNDERFLOW where the offset is greater than a + 2. -/
def Obligations.JmpbRule : Prop :=
  FetchesAs .jmpb 0x08#8 2 (fun s => .jmpb (progByte s 1)) ∧
  ∀ (r : Byte) (s : State),
    (∀ i : Fin 32, r.toNat = i.val →
      (s.regs[i].toNat ≤ s.pc.toNat + 2 →
        exec (.jmpb r) s = .next { s with pc := s.pc + 2#32 - s.regs[i] }) ∧
      (s.pc.toNat + 2 < s.regs[i].toNat → exec (.jmpb r) s = .next { s with status := 0x0A#8 })) ∧
    (31 < r.toNat → exec (.jmpb r) s = .next { s with status := 0x05#8 })

/-- R204, EQ: all 32 bits compared; the pad byte must exist (n = 4) and is not checked. -/
def Obligations.EqRule : Prop :=
  FetchesAs .eq 0x09#8 4 (fun s => .eq (progByte s 1) (progByte s 2) (progByte s 3)) ∧
  ∀ (f1 f2 pad : Byte) (s : State),
    (∀ i1 i2 : Fin 32, f1.toNat = i1.val → f2.toNat = i2.val →
      exec (.eq f1 f2 pad) s = .next { s with eq := decide (s.regs[i1] = s.regs[i2]), pc := s.pc + 4#32 }) ∧
    (31 < f1.toNat ∨ 31 < f2.toNat → exec (.eq f1 f2 pad) s = .next { s with status := 0x05#8 })

/-- R205 and R206, JEQ and JNEQ: exactly one of the two takes its jump. The register field is checked whether or not
the jump is taken. -/
def Obligations.ConditionalJumpRule : Prop :=
  FetchesAs .jeq 0x0A#8 2 (fun s => .jeq (progByte s 1)) ∧
  FetchesAs .jneq 0x0B#8 2 (fun s => .jneq (progByte s 1)) ∧
  ∀ (r : Byte) (s : State),
    (∀ i : Fin 32, r.toNat = i.val →
      (s.eq = true → exec (.jeq r) s = .next { s with pc := s.regs[i] } ∧
        exec (.jneq r) s = .next { s with pc := s.pc + 2#32 }) ∧
      (s.eq = false → exec (.jeq r) s = .next { s with pc := s.pc + 2#32 } ∧
        exec (.jneq r) s = .next { s with pc := s.regs[i] })) ∧
    (31 < r.toNat →
      exec (.jeq r) s = .next { s with status := 0x05#8 } ∧ exec (.jneq r) s = .next { s with status := 0x05#8 })

/-- R231 (the spec's decision D17) and R232 (derived in the spec), ALOC: HEAP_NEGATIVE, HEAP_OVERFLOW, or k zero bytes
at addresses L to L + k − 1; every byte below L reads as before; the addresses after it are 0 to L + k − 1. -/
def Obligations.AlocRule : Prop :=
  FetchesAs .aloc 0x0C#8 2 (fun s => .aloc (progByte s 1)) ∧
  ∀ (r : Byte) (s : State),
    (∀ i : Fin 32, r.toNat = i.val →
      (s.regs[i].toInt < 0 → exec (.aloc r) s = .next { s with status := 0x0B#8 }) ∧
      (∀ k : Nat, s.regs[i].toInt = k → s.build.heapMax < s.heap.len + k →
        exec (.aloc r) s = .next { s with status := 0x0C#8 }) ∧
      (∀ k : Nat, s.regs[i].toInt = k → s.heap.len + k ≤ s.build.heapMax →
        ∃ h : Memory, exec (.aloc r) s = .next { s with heap := h, pc := s.pc + 2#32 } ∧
          h.len = s.heap.len + k ∧
          (∀ a : Nat, a < s.heap.len → h.read a = s.heap.read a) ∧
          (∀ a : Nat, s.heap.len ≤ a → a < s.heap.len + k → h.read a = some 0x00#8) ∧
          (∀ a : Nat, s.heap.len + k ≤ a → h.read a = none))) ∧
    (31 < r.toNat → exec (.aloc r) s = .next { s with status := 0x05#8 })

/-! ### What an instruction reads and writes -/

/-- The table of R21 (derived): an instruction writes no register but the table's destination; and its effect depends
on no register but those the table says it reads. (Two states that agree on these and on everything but the registers
step to states that agree on everything but the registers and, where the instruction completes, on the destination.) -/
def Obligations.RegisterReadsAndWrites : Prop :=
  (∀ (i : Instr) (s t : State), exec i s = .next t → ∀ j : Fin 32, t.regs[j] ≠ s.regs[j] →
    ∃ b : Byte, writeField s.build.arithOrder i = some b ∧ b.toNat = j.val) ∧
  (∀ (i : Instr) (s : State) (regs : Vector Word 32) (t u : State),
    (∀ b ∈ readFields s.build.arithOrder i, ∀ j : Fin 32, b.toNat = j.val → s.regs[j] = regs[j]) →
    exec i s = .next t → exec i { s with regs := regs } = .next u →
    { t with regs := u.regs } = u ∧
    (s.status = 0x00#8 → t.status = 0x00#8 → ∀ b : Byte, writeField s.build.arithOrder i = some b →
      ∀ j : Fin 32, b.toNat = j.val → t.regs[j] = u.regs[j]))

/-- R24: the pc after each instruction that completes without a fault, exact where its bytes lie in a program of at
most 2^32 − 1 bytes; a fault leaves pc at a. -/
def Obligations.PcAfterInstruction : Prop :=
  ∀ (i : Instr) (s t : State), s.status = 0x00#8 →
    s.pc.toNat + opcodeLength i.opcode ≤ 4294967295 → exec i s = .next t →
    (t.code.toNat ≤ 3 → t.pc.toNat = pcAfter s i) ∧ (4 ≤ t.code.toNat → t.pc = s.pc)

/-- R26: EQ alone writes eq, and what it writes; JEQ and JNEQ alone read it (every other instruction has the same
effect, eq apart, in the state with the other flag, and an EQ that completes writes the same eq there); FLAG_READ and
FLAG_WRITE, whose response is left open; false at reset. -/
def Obligations.EqFlagRule : Prop :=
  State.reset.eq = false ∧
  (∀ (i : Instr) (s t : State), exec i s = .next t → t.eq ≠ s.eq → i.opcode = .eq) ∧
  (∀ (f1 f2 pad : Byte) (i1 i2 : Fin 32) (s : State), f1.toNat = i1.val → f2.toNat = i2.val →
    ∃ t : State, exec (.eq f1 f2 pad) s = .next t ∧ (t.eq = true ↔ s.regs[i1] = s.regs[i2])) ∧
  (∀ (i : Instr) (s t u : State) (f : Bool), i.opcode ≠ .jeq → i.opcode ≠ .jneq →
    exec i s = .next t → exec i { s with eq := f } = .next u →
    { u with eq := t.eq } = t ∧ (i.opcode = .eq → s.status = 0x00#8 → t.status = 0x00#8 → t.eq = u.eq)) ∧
  (∀ (fuel : Nat) (s : State) (f : Bool), serve fuel .flagRead s = some (s, .bit s.eq) ∧
    ∃ r : Response, serve fuel (.flagWrite f) s = some ({ s with eq := f }, r))

/-- R27 (the width is the spec's decision D27): only a DIV that completes writes rem; no instruction reads it (with
another rem every instruction has the same effect, rem apart, and a DIV that completes from RUNNING writes the same
rem); REM_READ returns it; 0 at reset. -/
def Obligations.RemainderRule : Prop :=
  State.reset.rem = 0#32 ∧
  (∀ (i : Instr) (s t : State), exec i s = .next t → t.rem ≠ s.rem →
    i.opcode = .div ∧ t.pc = s.pc + 4#32 ∧ t.status = s.status) ∧
  (∀ (i : Instr) (s t u : State) (v : Word), exec i s = .next t → exec i { s with rem := v } = .next u →
    { u with rem := t.rem } = t ∧ (i.opcode = .div → s.status = 0x00#8 → t.status = 0x00#8 → t.rem = u.rem)) ∧
  (∀ (fuel : Nat) (s : State), serve fuel .remRead s = some (s, .word s.rem))

/-- R28 (the spec's decision D7): STATUS_READ shows the code in bits 3:0 and zero in bits 7:4; a step or a command
leaves a status that is the old one or a plain code; only RESET, STEP and RUN change it. -/
def Obligations.StatusRegisterRule : Prop :=
  (∀ (fuel : Nat) (s : State), ∃ b : Byte, serve fuel .statusRead s = some (s, .byte b) ∧
    b.extractLsb' 0 4 = s.code ∧ b.extractLsb' 4 4 = 0#4) ∧
  (∀ (fuel : Nat) (c : Command) (s t : State) (r : Response), serve fuel c s = some (t, r) →
    (t.status ≠ s.status → (c = .reset ∨ c = .step ∨ c = .run) ∧ t.status = t.code.setWidth 8))

/-- R234 (derived in the spec): the heap's contents and length reach nothing but HEAP_OVERFLOW: with another heap, an
instruction that raises it in neither state has the same effect, the heap apart. -/
def Obligations.HeapUnobservable : Prop :=
  ∀ (i : Instr) (s t u : State) (h : Memory), s.code ≠ 12#4 →
    exec i s = .next t → exec i { s with heap := h } = .next u →
    (i.opcode ≠ .aloc ∨ (t.code ≠ 12#4 ∧ u.code ≠ 12#4)) → { u with heap := t.heap } = t

/-- Frame of every instruction over memory, byte by byte (derived from R29, R62, R233): the program store and the
build are unchanged; the heap is unchanged but for ALOC, which leaves every byte below the old length as it was. -/
def Obligations.MemoryFrame : Prop :=
  ∀ (i : Instr) (s t : State), exec i s = .next t →
    t.prog.len = s.prog.len ∧ (∀ a : Nat, t.prog.read a = s.prog.read a) ∧ t.build = s.build ∧
    (i.opcode ≠ .aloc → t.heap.len = s.heap.len ∧ ∀ a : Nat, t.heap.read a = s.heap.read a) ∧
    (∀ a : Nat, a < s.heap.len → t.heap.read a = s.heap.read a)

/-! ### Invariants -/

/-- The state after RESET is legal (derived from R33; the values of PROG_MAX and HEAP_MAX there are the model's
choice, log entry 2). -/
def Obligations.ResetIsLegal : Prop :=
  State.reset.wf ∧ ∀ s : State, s.build.wf → s.afterReset.wf

/-- Every step keeps the state legal: canonical memories within their capacities, no heap byte but zero, a defined
stop code, reserved status bits zero. -/
def Obligations.StepKeepsLegal : Prop :=
  ∀ s t : State, s.wf → step s = .next t → t.wf

/-- Every host command keeps the state legal, RUN included. -/
def Obligations.CommandsKeepLegal : Prop :=
  ∀ (fuel : Nat) (c : Command) (s t : State) (r : Response), s.wf → serve fuel c s = some (t, r) → t.wf

/-- R62 (derived in the spec), R29: no step writes the program store; no command but APPEND and RESET does, and APPEND
changes no byte already present. The build never changes (R270). -/
def Obligations.ProgramStoreWrittenOnlyByHost : Prop :=
  (∀ s t : State, step s = .next t → t.prog = s.prog ∧ t.build = s.build) ∧
  (∀ (fuel : Nat) (c : Command) (s t : State) (r : Response), serve fuel c s = some (t, r) →
    t.build = s.build ∧ (c ≠ .reset → ∀ a : Nat, a < s.prog.len → t.prog.read a = s.prog.read a) ∧
    (c ≠ .reset → (∀ b : Byte, c ≠ .append b) → t.prog = s.prog))

/-- R30, R232 (derived in the spec): the heap only grows, and keeps every byte, until RESET; every byte of a legal
heap is 0x00. -/
def Obligations.HeapOnlyGrows : Prop :=
  (∀ (fuel : Nat) (c : Command) (s t : State) (r : Response), c ≠ .reset → serve fuel c s = some (t, r) →
    s.heap.len ≤ t.heap.len ∧ ∀ a : Nat, a < s.heap.len → t.heap.read a = s.heap.read a) ∧
  (∀ (s : State) (a : Nat), s.wf → a < s.heap.len → s.heap.read a = some 0x00#8)

/-- R25 (derived): in a legal state a step that completes a non-jump moves pc forward by the instruction's length,
without wrapping, to at most P.len ≤ 2^32 − 1. -/
def Obligations.SequentialAdvanceNeverWraps : Prop :=
  ∀ s t : State, s.wf → s.sticky = false → step s = .next t → t.code = 0#4 →
    opcodeAtPc s ∉ [Opcode.jmp, .jmpf, .jmpb, .jeq, .jneq] →
    t.pc.toNat = s.pc.toNat + opcodeLength (opcodeAtPc s) ∧ t.pc.toNat ≤ s.prog.len ∧ s.prog.len ≤ 4294967295

/-! ### The host interface -/

/-- R33, R35 (the spec's decision D16): RESET sets every piece of state to its reset value and returns nothing; the
build stays (R270). -/
def Obligations.ResetCommandRule : Prop :=
  ∀ (fuel : Nat) (s : State), ∃ t : State, serve fuel .reset s = some (t, .nothing) ∧
    (∀ j : Fin 32, t.regs[j] = 0#32) ∧ t.pc = 0#32 ∧ t.eq = false ∧ t.rem = 0#32 ∧ t.status = 0x00#8 ∧
    t.prog.len = 0 ∧ (∀ a : Nat, t.prog.read a = none) ∧ t.heap.len = 0 ∧ (∀ a : Nat, t.heap.read a = none) ∧
    t.build = s.build

/-- R36 (the spec's decision D20): APPEND adds one byte at P.len, or answers CMD_ERROR at PROG_MAX; it changes nothing
else, in any status; after an END_OF_PROGRAM stop at P.len the next step executes. -/
def Obligations.AppendCommandRule : Prop :=
  ∀ (fuel : Nat) (b : Byte) (s : State), s.prog.wf →
    (s.prog.len < s.build.progMax → ∃ p : Memory,
      serve fuel (.append b) s = some ({ s with prog := p }, .ok) ∧ p.len = s.prog.len + 1 ∧
      p.read s.prog.len = some b ∧ (∀ a : Nat, a < s.prog.len → p.read a = s.prog.read a) ∧
      (s.code = 2#4 → s.pc.toNat = s.prog.len →
        ∃ u : State, step { s with prog := p } = .next u ∧ u.code ≠ 2#4)) ∧
    (s.build.progMax ≤ s.prog.len → serve fuel (.append b) s = some (s, .cmdError))

/-- RUN returns STOP(code) exactly where some number of steps answer CONTINUE and the next stops, and returns that
step's state (derived from R38). R38 gives RUN no bound: the fuel, and with it the clause k < fuel, is the model's
choice, log entry 4 (DEDUCED from 92_eei_decisions.md D26). -/
def Obligations.RunCommandRule : Prop :=
  ∀ (fuel : Nat) (s t : State) (r : Response),
    serve fuel .run s = some (t, r) ↔
      ∃ (k : Nat) (u : State), k < fuel ∧ continuesTo k s u ∧ step u = .next t ∧ t.code ≠ 0#4 ∧ r = .stop t.code

/-- R278 (derived): a JMP to its own address makes RUN never return: it returns for no fuel (the fuel is the model's
choice, log entry 4). -/
def Obligations.SelfJumpRunsForever : Prop :=
  ∀ (s : State) (i : Fin 32), s.sticky = false → s.pc.toNat + 2 ≤ s.prog.len → opcodeAtPc s = .jmp →
    (progByte s 1).toNat = i.val → s.regs[i] = s.pc → ∀ fuel : Nat, serve fuel .run s = none

/-- R39 (the spec's decision D20): REG_READ and REG_WRITE, in any status. -/
def Obligations.RegisterCommandsRule : Prop :=
  ∀ (fuel : Nat) (v : Word) (s : State),
    (∀ i : Fin 32, serve fuel (.regRead i.val) s = some (s, .word s.regs[i]) ∧
      serve fuel (.regWrite i.val v) s = some ({ s with regs := s.regs.set i v }, .ok)) ∧
    (∀ n : Nat, 31 < n → serve fuel (.regRead n) s = some (s, .cmdError) ∧
      serve fuel (.regWrite n v) s = some (s, .cmdError))

/-- R41, R42 (the spec's decision D20): REM_READ and PC_READ; no command but RESET, STEP and RUN changes rem or pc. -/
def Obligations.RemAndPcCommandsRule : Prop :=
  (∀ (fuel : Nat) (s : State),
    serve fuel .remRead s = some (s, .word s.rem) ∧ serve fuel .pcRead s = some (s, .word s.pc)) ∧
  (∀ (fuel : Nat) (c : Command) (s t : State) (r : Response), serve fuel c s = some (t, r) →
    t.rem ≠ s.rem ∨ t.pc ≠ s.pc → c = .reset ∨ c = .step ∨ c = .run)

/-- R44, R45 (the spec's decision D20): the lengths and the bytes of heap and program store, CMD_ERROR past their
ends; no read changes state. -/
def Obligations.MemoryReadCommandsRule : Prop :=
  ∀ (fuel : Nat) (s : State) (addr : Word),
    serve fuel .heapLenRead s = some (s, .word (BitVec.ofNat 32 s.heap.len)) ∧
    serve fuel .progLenRead s = some (s, .word (BitVec.ofNat 32 s.prog.len)) ∧
    (∀ b : Byte, s.heap.read addr.toNat = some b → serve fuel (.heapRead addr) s = some (s, .byte b)) ∧
    (∀ b : Byte, s.prog.read addr.toNat = some b → serve fuel (.progRead addr) s = some (s, .byte b)) ∧
    (addr.toNat < s.heap.len → ∃ b : Byte, serve fuel (.heapRead addr) s = some (s, .byte b)) ∧
    (addr.toNat < s.prog.len → ∃ b : Byte, serve fuel (.progRead addr) s = some (s, .byte b)) ∧
    (s.heap.len ≤ addr.toNat → serve fuel (.heapRead addr) s = some (s, .cmdError)) ∧
    (s.prog.len ≤ addr.toNat → serve fuel (.progRead addr) s = some (s, .cmdError))

/-- R46 (the spec's decision D20): CMD_ERROR never sets status and never changes any state. -/
def Obligations.CmdErrorChangesNothing : Prop :=
  ∀ (fuel : Nat) (c : Command) (s t : State), serve fuel c s = some (t, .cmdError) → t = s

/-- R247 (the spec's decision D10): after HALTED, ILLEGAL_OPCODE or a fault, no sequence of commands without RESET
executes an instruction: the code, pc, rem and heap stay, and every STEP and RUN returns STOP of the code. RESET lets
it execute again. -/
def Obligations.OnlyResetLeavesStickyStop : Prop :=
  ∀ (fuel : Nat) (s : State), s.sticky = true →
    (∀ (cs : List Command) (t : State) (rs : List Response), .reset ∉ cs → serveAll fuel cs s = some (t, rs) →
      t.code = s.code ∧ t.pc = s.pc ∧ t.rem = s.rem ∧ t.heap = s.heap) ∧
    serve fuel .step s = some (s, .stop s.code) ∧
    serve (fuel + 1) .run s = some (s, .stop s.code) ∧
    s.afterReset.sticky = false

/-! ### The assembler -/

/-- The last sentence of R98: the bytes of a line of R93, for every real opcode, register and value. -/
def Obligations.AssembledLineBytes : Prop :=
  ∀ (m : OpcodeMap) (l : Assembler.Line) (b : Byte), opcodeByte m l.op = some b →
    ∃ hi lo : Byte, Assembler.toBytes m l.instruction = .ok [b, BitVec.ofNat 8 l.reg.val, hi, lo] ∧
      (hi.toNat * 256 + lo.toNat : Int) = l.int.toInt % 65536

/-- R101: for every line the grammar accepts, the four bytes read back as its opcode, register and integer modulo
2^16. -/
def Obligations.AssembledLineRoundTrip : Prop :=
  ∀ (m : OpcodeMap), m.wf → ∀ (text rest : List Char) (l : Assembler.Line),
    Assembler.parseLine text = some (l, rest) →
    ∃ bs : List Byte, Assembler.toBytes m l.instruction = .ok bs ∧
      ∃ v : Imm16, Assembler.readLine m bs = some (l.op, BitVec.ofNat 8 l.reg.val, v) ∧
        (v.toNat : Int) = l.int.toInt % 65536

/-- R100 (derived in the spec): what the unit reads in an assembled line: LOAD, ALU and EQ lines are one instruction,
whose integer's two bytes are the immediate, or register fields, or a register field and the pad; HLT is one byte and
three are left; a 2-byte instruction leaves the integer's two bytes as the next instruction. -/
def Obligations.AssembledLineAsExecuted : Prop :=
  ∀ (m : OpcodeMap), m.wf → ∀ (r hi lo : Byte),
    decode m [m.load, r, hi, lo] = .ok (.load r (hi ++ lo), []) ∧
    decode m [m.hlt, r, hi, lo] = .ok (.hlt, [r, hi, lo]) ∧
    decode m [m.add, r, hi, lo] = .ok (.add r hi lo, []) ∧
    decode m [m.sub, r, hi, lo] = .ok (.sub r hi lo, []) ∧
    decode m [m.mul, r, hi, lo] = .ok (.mul r hi lo, []) ∧
    decode m [m.div, r, hi, lo] = .ok (.div r hi lo, []) ∧
    decode m [m.eq, r, hi, lo] = .ok (.eq r hi lo, []) ∧
    decode m [m.jmp, r, hi, lo] = .ok (.jmp r, [hi, lo]) ∧
    decode m [m.jmpf, r, hi, lo] = .ok (.jmpf r, [hi, lo]) ∧
    decode m [m.jmpb, r, hi, lo] = .ok (.jmpb r, [hi, lo]) ∧
    decode m [m.jeq, r, hi, lo] = .ok (.jeq r, [hi, lo]) ∧
    decode m [m.jneq, r, hi, lo] = .ok (.jneq r, [hi, lo]) ∧
    decode m [m.aloc, r, hi, lo] = .ok (.aloc r, [hi, lo]) ∧
    decode m [m.inc, r, hi, lo] = .ok (.inc r, [hi, lo]) ∧
    decode m [m.dec, r, hi, lo] = .ok (.dec r, [hi, lo])

/-- The typed errors of R99: an opcode field that is not an Op token, or an operand field that holds one, is a typed
error and gives no bytes; so is an Op token of IGL in the opcode field (the model's choice, log entry 13, DEDUCED from
R85); every other instruction gives bytes, at most 1 + 2·3 of them. -/
def Obligations.AssemblerTypedErrors : Prop :=
  ∀ (m : OpcodeMap) (i : Assembler.AssemblerInstruction),
    ((∀ o : Opcode, i.opcode ≠ .op o) → Assembler.toBytes m i = .error .opcodeNotOp) ∧
    (i.opcode = .op .igl → Assembler.toBytes m i = .error .iglHasNoByte) ∧
    (∀ o : Opcode, i.opcode = .op o → o ≠ .igl →
      ((∃ p : Opcode, some (Assembler.Token.op p) ∈ [i.operand1, i.operand2, i.operand3]) →
        Assembler.toBytes m i = .error .operandIsOp) ∧
      ((¬∃ p : Opcode, some (Assembler.Token.op p) ∈ [i.operand1, i.operand2, i.operand3]) →
        ∃ bs : List Byte, Assembler.toBytes m i = .ok bs ∧ bs.length ≤ 7))

/-! ### The table's words -/

/-- A word of the opcode table placed where the step fetches runs as the next instruction (derived; it is the model's
own interface, log entry 9): in a state with the default map and a canonical program store, the step is exec of the
instruction the decoder reads from the word. Nothing but the program store changes, and status from a sticky stop
alone, to RUNNING. -/
def Obligations.FetchWordRunsTableInstruction : Prop :=
  ∀ (s : State) (nbits w : Nat) (i : Instr), s.build.opcodes = OpcodeMap.default → s.prog.wf →
    decodeTableWord nbits w = some i →
    ∃ p : Memory,
      (s.sticky = false → s.withFetchWord nbits w = { s with prog := p }) ∧
      (s.sticky = true → s.withFetchWord nbits w = { s with prog := p, status := 0x00#8 }) ∧
      p.wf ∧ (∀ k : Nat, k < 4 → p.read (s.pc.toNat + k) = (tableBytes nbits w)[k]?) ∧
      (∀ a : Nat, a < s.pc.toNat ∨ s.pc.toNat + 4 ≤ a → cellsRead p.cells a = cellsRead s.prog.cells a) ∧
      step (s.withFetchWord nbits w) = exec i { s with prog := p, status := 0x00#8 }
end

