-- ==== Sys2Proof/Laws/Decode.lean ====
section
/-! SUPPORT. What the opcode lookup and the operand consumption can answer. -/

namespace Sys2Proof

/-! ### Opcode bytes -/

/-- Everything the opcode lookup can answer: IGL exactly for a byte outside the map, else an opcode with that byte
(R83, R85). No injectivity is needed. -/
theorem opcodeOf_cases (m : OpcodeMap) (b : Byte) :
    (b ∉ m.bytes ∧ opcodeOf m b = .igl) ∨
      (∃ op : Opcode, op ≠ .igl ∧ opcodeOf m b = op ∧ opcodeByte m op = some b) := by
  by_cases h0 : b = m.load
  · exact .inr ⟨.load, by decide, by rw [opcodeOf, if_pos h0], congrArg some h0.symm⟩
  by_cases h1 : b = m.hlt
  · exact .inr ⟨.hlt, by decide, by rw [opcodeOf, if_neg h0, if_pos h1], congrArg some h1.symm⟩
  by_cases h2 : b = m.add
  · exact .inr ⟨.add, by decide, by rw [opcodeOf, if_neg h0, if_neg h1, if_pos h2], congrArg some h2.symm⟩
  by_cases h3 : b = m.sub
  · exact .inr ⟨.sub, by decide, by rw [opcodeOf, if_neg h0, if_neg h1, if_neg h2, if_pos h3], congrArg some h3.symm⟩
  by_cases h4 : b = m.mul
  · exact .inr ⟨.mul, by decide, by rw [opcodeOf, if_neg h0, if_neg h1, if_neg h2, if_neg h3, if_pos h4], congrArg some h4.symm⟩
  by_cases h5 : b = m.div
  · exact .inr ⟨.div, by decide, by rw [opcodeOf, if_neg h0, if_neg h1, if_neg h2, if_neg h3, if_neg h4, if_pos h5], congrArg some h5.symm⟩
  by_cases h6 : b = m.jmp
  · exact .inr ⟨.jmp, by decide, by rw [opcodeOf, if_neg h0, if_neg h1, if_neg h2, if_neg h3, if_neg h4, if_neg h5, if_pos h6], congrArg some h6.symm⟩
  by_cases h7 : b = m.jmpf
  · exact .inr ⟨.jmpf, by decide, by rw [opcodeOf, if_neg h0, if_neg h1, if_neg h2, if_neg h3, if_neg h4, if_neg h5, if_neg h6, if_pos h7], congrArg some h7.symm⟩
  by_cases h8 : b = m.jmpb
  · exact .inr ⟨.jmpb, by decide, by rw [opcodeOf, if_neg h0, if_neg h1, if_neg h2, if_neg h3, if_neg h4, if_neg h5, if_neg h6, if_neg h7, if_pos h8], congrArg some h8.symm⟩
  by_cases h9 : b = m.eq
  · exact .inr ⟨.eq, by decide, by rw [opcodeOf, if_neg h0, if_neg h1, if_neg h2, if_neg h3, if_neg h4, if_neg h5, if_neg h6, if_neg h7, if_neg h8, if_pos h9], congrArg some h9.symm⟩
  by_cases h10 : b = m.jeq
  · exact .inr ⟨.jeq, by decide, by rw [opcodeOf, if_neg h0, if_neg h1, if_neg h2, if_neg h3, if_neg h4, if_neg h5, if_neg h6, if_neg h7, if_neg h8, if_neg h9, if_pos h10], congrArg some h10.symm⟩
  by_cases h11 : b = m.jneq
  · exact .inr ⟨.jneq, by decide, by rw [opcodeOf, if_neg h0, if_neg h1, if_neg h2, if_neg h3, if_neg h4, if_neg h5, if_neg h6, if_neg h7, if_neg h8, if_neg h9, if_neg h10, if_pos h11], congrArg some h11.symm⟩
  by_cases h12 : b = m.aloc
  · exact .inr ⟨.aloc, by decide, by rw [opcodeOf, if_neg h0, if_neg h1, if_neg h2, if_neg h3, if_neg h4, if_neg h5, if_neg h6, if_neg h7, if_neg h8, if_neg h9, if_neg h10, if_neg h11, if_pos h12], congrArg some h12.symm⟩
  by_cases h13 : b = m.inc
  · exact .inr ⟨.inc, by decide, by rw [opcodeOf, if_neg h0, if_neg h1, if_neg h2, if_neg h3, if_neg h4, if_neg h5, if_neg h6, if_neg h7, if_neg h8, if_neg h9, if_neg h10, if_neg h11, if_neg h12, if_pos h13], congrArg some h13.symm⟩
  by_cases h14 : b = m.dec
  · exact .inr ⟨.dec, by decide, by rw [opcodeOf, if_neg h0, if_neg h1, if_neg h2, if_neg h3, if_neg h4, if_neg h5, if_neg h6, if_neg h7, if_neg h8, if_neg h9, if_neg h10, if_neg h11, if_neg h12, if_neg h13, if_pos h14], congrArg some h14.symm⟩
  refine .inl ⟨?_, by rw [opcodeOf, if_neg h0, if_neg h1, if_neg h2, if_neg h3, if_neg h4, if_neg h5, if_neg h6, if_neg h7, if_neg h8, if_neg h9, if_neg h10, if_neg h11, if_neg h12, if_neg h13, if_neg h14]⟩
  simp only [OpcodeMap.bytes, List.mem_cons, List.not_mem_nil, or_false, not_or]
  exact ⟨h0, h1, h2, h3, h4, h5, h6, h7, h8, h9, h10, h11, h12, h13, h14⟩

/-- An opcode's byte is one of the map's. -/
theorem opcodeByte_mem {m : OpcodeMap} {op : Opcode} {b : Byte} (h : opcodeByte m op = some b) : b ∈ m.bytes := by
  cases op <;> simp only [opcodeByte, Option.some.injEq, reduceCtorEq] at h <;> subst h <;> simp [OpcodeMap.bytes]

/-- The place of a real opcode in the order of R3. -/
def opcodeRank : Opcode → Nat
  | .load => 0
  | .hlt => 1
  | .add => 2
  | .sub => 3
  | .mul => 4
  | .div => 5
  | .jmp => 6
  | .jmpf => 7
  | .jmpb => 8
  | .eq => 9
  | .jeq => 10
  | .jneq => 11
  | .aloc => 12
  | .inc => 13
  | .dec => 14
  | .igl => 15

/-- An opcode's byte stands at its place in the map. -/
theorem opcodeByte_rank {m : OpcodeMap} {op : Opcode} {b : Byte} (h : opcodeByte m op = some b) :
    m.bytes[opcodeRank op]? = some b := by
  cases op <;> simp only [opcodeByte, Option.some.injEq, reduceCtorEq] at h <;> subst h <;> rfl

/-- Under an injective map, two opcodes with one byte are one opcode (R85). -/
theorem opcodeByte_injective {m : OpcodeMap} (hm : m.wf) {o p : Opcode} {b : Byte} (ho : opcodeByte m o = some b)
    (hp : opcodeByte m p = some b) : o = p := by
  have h1 := opcodeByte_rank ho
  have h2 := opcodeByte_rank hp
  obtain ⟨l1, e1⟩ := List.getElem?_eq_some_iff.1 h1
  obtain ⟨l2, e2⟩ := List.getElem?_eq_some_iff.1 h2
  have apart := List.pairwise_iff_getElem.1 hm
  have hr : opcodeRank o = opcodeRank p := by
    rcases Nat.lt_trichotomy (opcodeRank o) (opcodeRank p) with h | h | h
    · exact absurd (e1.trans e2.symm) (apart _ _ l1 l2 h)
    · exact h
    · exact absurd (e2.trans e1.symm) (apart _ _ l2 l1 h)
  revert hr
  cases o <;> cases p <;> decide

/-! ### Operand consumption -/

theorem consumeR_ok {mk : Byte → Instr} {bs rest : List Byte} {i : Instr} (h : consumeR mk bs = .ok (i, rest)) :
    ∃ r : Byte, i = mk r ∧ bs = r :: rest := by
  rcases bs with _ | ⟨r, bs⟩
  · simp [consumeR, next8] at h
  · simp only [consumeR, next8, Except.ok.injEq, Prod.mk.injEq] at h
    exact ⟨r, h.1.symm, by rw [h.2]⟩

theorem consumeRI_ok {mk : Byte → Imm16 → Instr} {bs rest : List Byte} {i : Instr}
    (h : consumeRI mk bs = .ok (i, rest)) : ∃ r hi lo : Byte, i = mk r (hi ++ lo) ∧ bs = r :: hi :: lo :: rest := by
  rcases bs with _ | ⟨r, _ | ⟨hi, _ | ⟨lo, bs⟩⟩⟩
  · simp [consumeRI, next8] at h
  · simp [consumeRI, next8, next16] at h
  · simp [consumeRI, next8, next16] at h
  · simp only [consumeRI, next8, next16, Except.ok.injEq, Prod.mk.injEq] at h
    exact ⟨r, hi, lo, h.1.symm, by rw [h.2]⟩

theorem consumeRRR_ok {mk : Byte → Byte → Byte → Instr} {bs rest : List Byte} {i : Instr}
    (h : consumeRRR mk bs = .ok (i, rest)) : ∃ f1 f2 f3 : Byte, i = mk f1 f2 f3 ∧ bs = f1 :: f2 :: f3 :: rest := by
  rcases bs with _ | ⟨f1, _ | ⟨f2, _ | ⟨f3, bs⟩⟩⟩
  · simp [consumeRRR, next8] at h
  · simp [consumeRRR, next8] at h
  · simp [consumeRRR, next8] at h
  · simp only [consumeRRR, next8, Except.ok.injEq, Prod.mk.injEq] at h
    exact ⟨f1, f2, f3, h.1.symm, by rw [h.2]⟩

/-- A 16-bit value is its high byte followed by its low byte (R53, R87). -/
theorem highByte_append_lowByte (v : Imm16) : v.extractLsb' 8 8 ++ v.extractLsb' 0 8 = v := by
  apply BitVec.eq_of_getLsbD_eq
  intro k hk
  rw [BitVec.getLsbD_append]
  by_cases h : k < 8
  · simp [h]
  · have h8 : k - 8 < 8 := by omega
    have e : 8 + (k - 8) = k := by omega
    simp [h, h8, e]

/-- The high byte of two bytes put together. -/
theorem highByte_of_append (hi lo : Byte) : (hi ++ lo).extractLsb' 8 8 = hi := by
  apply BitVec.eq_of_getLsbD_eq
  intro k hk
  rw [BitVec.getLsbD_extractLsb', BitVec.getLsbD_append]
  have : ¬8 + k < 8 := by omega
  simp [hk, this]

/-- The low byte of two bytes put together. -/
theorem lowByte_of_append (hi lo : Byte) : (hi ++ lo).extractLsb' 0 8 = lo := by
  apply BitVec.eq_of_getLsbD_eq
  intro k hk
  rw [BitVec.getLsbD_extractLsb', BitVec.getLsbD_append]
  simp [hk]

end Sys2Proof
end

