-- ==== Sys2Proof/Laws/Operands.lean ====
section
/-! SUPPORT. What the operand forms and the overflow law can answer, once for each. -/

namespace Sys2Proof.Machine

/-! ### Register fields -/

theorem regIndex_of_index {b : Byte} {i : Fin 32} (h : b.toNat = i.val) : regIndex b = some i := by
  have hb : b.toNat < 32 := by omega
  simp only [regIndex, hb, dif_pos, Option.some.injEq]
  exact Fin.ext h

theorem regIndex_of_illegal {b : Byte} (h : 31 < b.toNat) : regIndex b = none := by
  simp [regIndex, Nat.not_lt.2 h]

theorem withReg_of_index {b : Byte} {i : Fin 32} (h : b.toNat = i.val) (s : State) (k : Fin 32 → Result) :
    withReg b s k = k i := by simp [withReg, regIndex_of_index h]

theorem withReg_of_illegal {b : Byte} (h : 31 < b.toNat) (s : State) (k : Fin 32 → Result) :
    withReg b s k = raised .regIndex s := by simp [withReg, regIndex_of_illegal h]

/-- A byte is a legal index or above 31. -/
theorem index_or_illegal (b : Byte) : (∃ i : Fin 32, b.toNat = i.val) ∨ 31 < b.toNat := by
  by_cases h : b.toNat < 32
  · exact .inl ⟨⟨b.toNat, h⟩, rfl⟩
  · exact .inr (by omega)

/-- Everything a one-register check can do. -/
theorem withReg_cases (b : Byte) (s : State) (k : Fin 32 → Result) :
    (∃ i : Fin 32, b.toNat = i.val ∧ withReg b s k = k i) ∨
      (31 < b.toNat ∧ withReg b s k = raised .regIndex s) := by
  rcases index_or_illegal b with ⟨i, h⟩ | h
  · exact .inl ⟨i, h, withReg_of_index h s k⟩
  · exact .inr ⟨h, withReg_of_illegal h s k⟩

theorem withReg2_of_index {b1 b2 : Byte} {i1 i2 : Fin 32} (h1 : b1.toNat = i1.val) (h2 : b2.toNat = i2.val)
    (s : State) (k : Fin 32 → Fin 32 → Result) : withReg2 b1 b2 s k = k i1 i2 := by
  simp [withReg2, withReg_of_index h1, withReg_of_index h2]

theorem withReg2_of_illegal {b1 b2 : Byte} (h : 31 < b1.toNat ∨ 31 < b2.toNat) (s : State)
    (k : Fin 32 → Fin 32 → Result) : withReg2 b1 b2 s k = raised .regIndex s := by
  rcases index_or_illegal b1 with ⟨i1, h1⟩ | h1
  · rcases h with h | h
    · omega
    · simp [withReg2, withReg_of_index h1, withReg_of_illegal h]
  · simp [withReg2, withReg_of_illegal h1]

/-- Everything a two-register check can do. -/
theorem withReg2_cases (b1 b2 : Byte) (s : State) (k : Fin 32 → Fin 32 → Result) :
    (∃ i1 i2 : Fin 32, b1.toNat = i1.val ∧ b2.toNat = i2.val ∧ withReg2 b1 b2 s k = k i1 i2) ∨
      ((31 < b1.toNat ∨ 31 < b2.toNat) ∧ withReg2 b1 b2 s k = raised .regIndex s) := by
  rcases index_or_illegal b1 with ⟨i1, h1⟩ | h1
  · rcases index_or_illegal b2 with ⟨i2, h2⟩ | h2
    · exact .inl ⟨i1, i2, h1, h2, withReg2_of_index h1 h2 s k⟩
    · exact .inr ⟨.inr h2, withReg2_of_illegal (.inr h2) s k⟩
  · exact .inr ⟨.inl h1, withReg2_of_illegal (.inl h1) s k⟩

theorem withReg3_of_index {b1 b2 b3 : Byte} {i1 i2 i3 : Fin 32} (h1 : b1.toNat = i1.val) (h2 : b2.toNat = i2.val)
    (h3 : b3.toNat = i3.val) (s : State) (k : Fin 32 → Fin 32 → Fin 32 → Result) :
    withReg3 b1 b2 b3 s k = k i1 i2 i3 := by
  simp [withReg3, withReg_of_index h1, withReg2_of_index h2 h3]

theorem withReg3_of_illegal {b1 b2 b3 : Byte} (h : 31 < b1.toNat ∨ 31 < b2.toNat ∨ 31 < b3.toNat) (s : State)
    (k : Fin 32 → Fin 32 → Fin 32 → Result) : withReg3 b1 b2 b3 s k = raised .regIndex s := by
  rcases index_or_illegal b1 with ⟨i1, h1⟩ | h1
  · rcases h with h | h
    · omega
    · simp [withReg3, withReg_of_index h1, withReg2_of_illegal h]
  · simp [withReg3, withReg_of_illegal h1]

/-- Everything a three-register check can do. -/
theorem withReg3_cases (b1 b2 b3 : Byte) (s : State) (k : Fin 32 → Fin 32 → Fin 32 → Result) :
    (∃ i1 i2 i3 : Fin 32, b1.toNat = i1.val ∧ b2.toNat = i2.val ∧ b3.toNat = i3.val ∧
        withReg3 b1 b2 b3 s k = k i1 i2 i3) ∨
      ((31 < b1.toNat ∨ 31 < b2.toNat ∨ 31 < b3.toNat) ∧ withReg3 b1 b2 b3 s k = raised .regIndex s) := by
  rcases index_or_illegal b1 with ⟨i1, h1⟩ | h1
  · rcases index_or_illegal b2 with ⟨i2, h2⟩ | h2
    · rcases index_or_illegal b3 with ⟨i3, h3⟩ | h3
      · exact .inl ⟨i1, i2, i3, h1, h2, h3, withReg3_of_index h1 h2 h3 s k⟩
      · exact .inr ⟨.inr (.inr h3), withReg3_of_illegal (.inr (.inr h3)) s k⟩
    · exact .inr ⟨.inr (.inl h2), withReg3_of_illegal (.inr (.inl h2)) s k⟩
  · exact .inr ⟨.inl h1, withReg3_of_illegal (.inl h1) s k⟩

/-! ### The overflow law -/

theorem fitsS32_iff (e : Int) : fitsS32 e = true ↔ s32Min ≤ e ∧ e ≤ s32Max := by simp [fitsS32]

/-- A result in range is written as it is. -/
theorem wrap32_toInt_of_fits {e : Int} (h : s32Min ≤ e ∧ e ≤ s32Max) : (wrap32 e).toInt = e := by
  obtain ⟨h1, h2⟩ := h
  rw [BitVec.toInt_ofInt]
  exact Int.bmod_eq_of_le (by simpa using h1) (by simp only [s32Max] at h2; omega)

/-- Everything the overflow law can answer: the wrapped result, or none exactly under `fault` and out of range. -/
theorem arithResult_cases (mode : ArithOverflow) (e : Int) :
    (arithResult mode e = some (wrap32 e) ∧ (mode = .wrap ∨ (s32Min ≤ e ∧ e ≤ s32Max))) ∨
      (arithResult mode e = none ∧ mode = .fault ∧ ¬(s32Min ≤ e ∧ e ≤ s32Max)) := by
  by_cases h : s32Min ≤ e ∧ e ≤ s32Max
  · exact .inl ⟨by simp [arithResult, (fitsS32_iff e).2 h], .inr h⟩
  · have hf : fitsS32 e = false := by
      rw [← Bool.not_eq_true, fitsS32_iff]
      exact h
    cases mode
    · exact .inl ⟨by simp [arithResult, hf], .inl rfl⟩
    · exact .inr ⟨by simp [arithResult, hf], rfl, h⟩

end Sys2Proof.Machine
end

