-- ==== Sys2Proof/Laws/State.lean ====
section
/-! SUPPORT. The small lemmas of State: one per field per update, so that no later proof unfolds a record update; and
the two readings of the status register. -/

namespace Sys2Proof.Machine

/-! ### setReg -/

@[simp] theorem State.setReg_regs (s : State) (i : Fin 32) (v : Word) : (s.setReg i v).regs = s.regs.set i v := rfl
@[simp] theorem State.setReg_pc (s : State) (i : Fin 32) (v : Word) : (s.setReg i v).pc = s.pc := rfl
@[simp] theorem State.setReg_eq (s : State) (i : Fin 32) (v : Word) : (s.setReg i v).eq = s.eq := rfl
@[simp] theorem State.setReg_rem (s : State) (i : Fin 32) (v : Word) : (s.setReg i v).rem = s.rem := rfl
@[simp] theorem State.setReg_status (s : State) (i : Fin 32) (v : Word) : (s.setReg i v).status = s.status := rfl
@[simp] theorem State.setReg_prog (s : State) (i : Fin 32) (v : Word) : (s.setReg i v).prog = s.prog := rfl
@[simp] theorem State.setReg_heap (s : State) (i : Fin 32) (v : Word) : (s.setReg i v).heap = s.heap := rfl
@[simp] theorem State.setReg_build (s : State) (i : Fin 32) (v : Word) : (s.setReg i v).build = s.build := rfl

/-! ### setPc -/

@[simp] theorem State.setPc_regs (s : State) (v : Word) : (s.setPc v).regs = s.regs := rfl
@[simp] theorem State.setPc_pc (s : State) (v : Word) : (s.setPc v).pc = v := rfl
@[simp] theorem State.setPc_eq (s : State) (v : Word) : (s.setPc v).eq = s.eq := rfl
@[simp] theorem State.setPc_rem (s : State) (v : Word) : (s.setPc v).rem = s.rem := rfl
@[simp] theorem State.setPc_status (s : State) (v : Word) : (s.setPc v).status = s.status := rfl
@[simp] theorem State.setPc_prog (s : State) (v : Word) : (s.setPc v).prog = s.prog := rfl
@[simp] theorem State.setPc_heap (s : State) (v : Word) : (s.setPc v).heap = s.heap := rfl
@[simp] theorem State.setPc_build (s : State) (v : Word) : (s.setPc v).build = s.build := rfl

/-! ### advance -/

@[simp] theorem State.advance_regs (s : State) (n : Nat) : (s.advance n).regs = s.regs := rfl
@[simp] theorem State.advance_pc (s : State) (n : Nat) : (s.advance n).pc = s.pc + BitVec.ofNat 32 n := rfl
@[simp] theorem State.advance_eq (s : State) (n : Nat) : (s.advance n).eq = s.eq := rfl
@[simp] theorem State.advance_rem (s : State) (n : Nat) : (s.advance n).rem = s.rem := rfl
@[simp] theorem State.advance_status (s : State) (n : Nat) : (s.advance n).status = s.status := rfl
@[simp] theorem State.advance_prog (s : State) (n : Nat) : (s.advance n).prog = s.prog := rfl
@[simp] theorem State.advance_heap (s : State) (n : Nat) : (s.advance n).heap = s.heap := rfl
@[simp] theorem State.advance_build (s : State) (n : Nat) : (s.advance n).build = s.build := rfl

/-! ### setEq -/

@[simp] theorem State.setEq_regs (s : State) (f : Bool) : (s.setEq f).regs = s.regs := rfl
@[simp] theorem State.setEq_pc (s : State) (f : Bool) : (s.setEq f).pc = s.pc := rfl
@[simp] theorem State.setEq_eq (s : State) (f : Bool) : (s.setEq f).eq = f := rfl
@[simp] theorem State.setEq_rem (s : State) (f : Bool) : (s.setEq f).rem = s.rem := rfl
@[simp] theorem State.setEq_status (s : State) (f : Bool) : (s.setEq f).status = s.status := rfl
@[simp] theorem State.setEq_prog (s : State) (f : Bool) : (s.setEq f).prog = s.prog := rfl
@[simp] theorem State.setEq_heap (s : State) (f : Bool) : (s.setEq f).heap = s.heap := rfl
@[simp] theorem State.setEq_build (s : State) (f : Bool) : (s.setEq f).build = s.build := rfl

/-! ### setRem -/

@[simp] theorem State.setRem_regs (s : State) (v : Word) : (s.setRem v).regs = s.regs := rfl
@[simp] theorem State.setRem_pc (s : State) (v : Word) : (s.setRem v).pc = s.pc := rfl
@[simp] theorem State.setRem_eq (s : State) (v : Word) : (s.setRem v).eq = s.eq := rfl
@[simp] theorem State.setRem_rem (s : State) (v : Word) : (s.setRem v).rem = v := rfl
@[simp] theorem State.setRem_status (s : State) (v : Word) : (s.setRem v).status = s.status := rfl
@[simp] theorem State.setRem_prog (s : State) (v : Word) : (s.setRem v).prog = s.prog := rfl
@[simp] theorem State.setRem_heap (s : State) (v : Word) : (s.setRem v).heap = s.heap := rfl
@[simp] theorem State.setRem_build (s : State) (v : Word) : (s.setRem v).build = s.build := rfl

/-! ### setProg -/

@[simp] theorem State.setProg_regs (s : State) (m : Memory) : (s.setProg m).regs = s.regs := rfl
@[simp] theorem State.setProg_pc (s : State) (m : Memory) : (s.setProg m).pc = s.pc := rfl
@[simp] theorem State.setProg_eq (s : State) (m : Memory) : (s.setProg m).eq = s.eq := rfl
@[simp] theorem State.setProg_rem (s : State) (m : Memory) : (s.setProg m).rem = s.rem := rfl
@[simp] theorem State.setProg_status (s : State) (m : Memory) : (s.setProg m).status = s.status := rfl
@[simp] theorem State.setProg_prog (s : State) (m : Memory) : (s.setProg m).prog = m := rfl
@[simp] theorem State.setProg_heap (s : State) (m : Memory) : (s.setProg m).heap = s.heap := rfl
@[simp] theorem State.setProg_build (s : State) (m : Memory) : (s.setProg m).build = s.build := rfl

/-! ### setHeap -/

@[simp] theorem State.setHeap_regs (s : State) (m : Memory) : (s.setHeap m).regs = s.regs := rfl
@[simp] theorem State.setHeap_pc (s : State) (m : Memory) : (s.setHeap m).pc = s.pc := rfl
@[simp] theorem State.setHeap_eq (s : State) (m : Memory) : (s.setHeap m).eq = s.eq := rfl
@[simp] theorem State.setHeap_rem (s : State) (m : Memory) : (s.setHeap m).rem = s.rem := rfl
@[simp] theorem State.setHeap_status (s : State) (m : Memory) : (s.setHeap m).status = s.status := rfl
@[simp] theorem State.setHeap_prog (s : State) (m : Memory) : (s.setHeap m).prog = s.prog := rfl
@[simp] theorem State.setHeap_heap (s : State) (m : Memory) : (s.setHeap m).heap = m := rfl
@[simp] theorem State.setHeap_build (s : State) (m : Memory) : (s.setHeap m).build = s.build := rfl

/-! ### setCode -/

@[simp] theorem State.setCode_regs (s : State) (c : StopCode) : (s.setCode c).regs = s.regs := rfl
@[simp] theorem State.setCode_pc (s : State) (c : StopCode) : (s.setCode c).pc = s.pc := rfl
@[simp] theorem State.setCode_eq (s : State) (c : StopCode) : (s.setCode c).eq = s.eq := rfl
@[simp] theorem State.setCode_rem (s : State) (c : StopCode) : (s.setCode c).rem = s.rem := rfl
@[simp] theorem State.setCode_status (s : State) (c : StopCode) : (s.setCode c).status = (stopBits c).setWidth 8 := rfl
@[simp] theorem State.setCode_prog (s : State) (c : StopCode) : (s.setCode c).prog = s.prog := rfl
@[simp] theorem State.setCode_heap (s : State) (c : StopCode) : (s.setCode c).heap = s.heap := rfl
@[simp] theorem State.setCode_build (s : State) (c : StopCode) : (s.setCode c).build = s.build := rfl

/-! ### raise -/

@[simp] theorem State.raise_regs (s : State) (c : StopCode) : (s.raise c).regs = s.regs := rfl
@[simp] theorem State.raise_pc (s : State) (c : StopCode) : (s.raise c).pc = s.pc := rfl
@[simp] theorem State.raise_eq (s : State) (c : StopCode) : (s.raise c).eq = s.eq := rfl
@[simp] theorem State.raise_rem (s : State) (c : StopCode) : (s.raise c).rem = s.rem := rfl
@[simp] theorem State.raise_status (s : State) (c : StopCode) : (s.raise c).status = (stopBits c).setWidth 8 := rfl
@[simp] theorem State.raise_prog (s : State) (c : StopCode) : (s.raise c).prog = s.prog := rfl
@[simp] theorem State.raise_heap (s : State) (c : StopCode) : (s.raise c).heap = s.heap := rfl
@[simp] theorem State.raise_build (s : State) (c : StopCode) : (s.raise c).build = s.build := rfl

/-! ### Stops and RESET -/

@[simp] theorem State.stopAfterOpcode_eq (s : State) (c : StopCode) :
    s.stopAfterOpcode c = { s with pc := s.pc + 1#32, status := (stopBits c).setWidth 8 } := rfl

@[simp] theorem State.stopAtEnd_eq (s : State) : s.stopAtEnd = { s with status := 0x02#8 } := rfl

@[simp] theorem State.afterReset_build (s : State) : s.afterReset.build = s.build := rfl

/-! ### The status code -/

/-- The code a status write leaves is the code written. -/
@[simp] theorem State.setCode_code (s : State) (c : StopCode) : (s.setCode c).code = stopBits c := by
  cases c <;> rfl

@[simp] theorem State.raise_code (s : State) (c : StopCode) : (s.raise c).code = stopBits c := State.setCode_code s c

/-- Only RUNNING and END_OF_PROGRAM are not sticky. -/
theorem State.sticky_eq_false_iff (s : State) : s.sticky = false ↔ s.code = 0#4 ∨ s.code = 2#4 := by
  by_cases h0 : s.code = 0#4 <;> by_cases h2 : s.code = 2#4 <;> simp [State.sticky, stopBits, h0, h2]

end Sys2Proof.Machine
end

