-- ==== Sys2Proof/Laws/Exec.lean ====
section
/-! SUPPORT. What each shared operation under the meanings can answer, and, from these, the shape of what any
instruction can do. -/

namespace Sys2Proof.Machine

/-- Everything an arithmetic commit can do (R171). -/
theorem writeResult_cases (d : Fin 32) (e : Int) (n : Nat) (s : State) :
    (writeResult d e n s = .next ((s.setReg d (wrap32 e)).advance n) ∧
        (s.build.arithOverflow = .wrap ∨ (s32Min ≤ e ∧ e ≤ s32Max))) ∨
      (writeResult d e n s = raised .arithOverflow s ∧ s.build.arithOverflow = .fault ∧
        ¬(s32Min ≤ e ∧ e ≤ s32Max)) := by
  rcases arithResult_cases s.build.arithOverflow e with ⟨h, hc⟩ | ⟨h, hc⟩
  · exact .inl ⟨by simp [writeResult, h], hc⟩
  · exact .inr ⟨by simp [writeResult, h], hc⟩

/-- Everything a division on checked registers can do (R175). -/
theorem divideInto_cases (s1 s2 d : Fin 32) (s : State) :
    ((s.getReg s2).toInt = 0 ∧ divideInto s1 s2 d s = raised .divByZero s) ∨
      ((s.getReg s1).toInt = s32Min ∧ (s.getReg s2).toInt = -1 ∧ divideInto s1 s2 d s = raised .divOverflow s) ∨
      ((s.getReg s2).toInt ≠ 0 ∧ ¬((s.getReg s1).toInt = s32Min ∧ (s.getReg s2).toInt = -1) ∧
        divideInto s1 s2 d s =
          .next (((s.setReg d (wrap32 (divide (s.getReg s1).toInt (s.getReg s2).toInt).1)).setRem
            (wrap32 (divide (s.getReg s1).toInt (s.getReg s2).toInt).2)).advance 4)) := by
  by_cases h0 : (s.getReg s2).toInt = 0
  · exact .inl ⟨h0, by simp [divideInto, h0]⟩
  · by_cases h1 : (s.getReg s1).toInt = s32Min ∧ (s.getReg s2).toInt = -1
    · exact .inr (.inl ⟨h1.1, h1.2, by simp [divideInto, h1.1, h1.2]⟩)
    · exact .inr (.inr ⟨h0, h1, by simp only [divideInto, h0, h1, if_false]⟩)

/-- Everything an absolute jump can do (R200). -/
theorem jumpIf_cases (taken : Bool) (r : Byte) (s : State) :
    (∃ i : Fin 32, r.toNat = i.val ∧
        jumpIf taken r s = .next (if taken then s.setPc (s.getReg i) else s.advance 2)) ∨
      (31 < r.toNat ∧ jumpIf taken r s = raised .regIndex s) := by
  rcases withReg_cases r s fun i => if taken then .next (s.setPc (s.getReg i)) else .next (s.advance 2) with
    ⟨i, h, e⟩ | ⟨h, e⟩
  · exact .inl ⟨i, h, by rw [jumpIf, e]; cases taken <;> rfl⟩
  · exact .inr ⟨h, e⟩

/-- Everything JMPF can do (R202). -/
theorem execJmpf_cases (r : Byte) (s : State) :
    (∃ i : Fin 32, r.toNat = i.val ∧ s.pc.toNat + 2 + (s.getReg i).toNat ≤ 4294967295 ∧
        execJmpf r s = .next (s.setPc (BitVec.ofNat 32 (s.pc.toNat + 2 + (s.getReg i).toNat)))) ∨
      (∃ i : Fin 32, r.toNat = i.val ∧ 4294967295 < s.pc.toNat + 2 + (s.getReg i).toNat ∧
        execJmpf r s = raised .pcOverflow s) ∨
      (31 < r.toNat ∧ execJmpf r s = raised .regIndex s) := by
  unfold execJmpf
  rcases withReg_cases r s _ with ⟨i, h, e⟩ | ⟨h, e⟩ <;> rw [e]
  · by_cases hc : jumpBase s + jumpOperand s i > 4294967295
    · exact .inr (.inl ⟨i, h, hc, by rw [if_pos hc]⟩)
    · exact .inl ⟨i, h, Nat.not_lt.1 hc, by rw [if_neg hc]; rfl⟩
  · exact .inr (.inr ⟨h, rfl⟩)

/-- Everything JMPB can do (R203). -/
theorem execJmpb_cases (r : Byte) (s : State) :
    (∃ i : Fin 32, r.toNat = i.val ∧ (s.getReg i).toNat ≤ s.pc.toNat + 2 ∧
        execJmpb r s = .next (s.setPc (BitVec.ofNat 32 (s.pc.toNat + 2 - (s.getReg i).toNat)))) ∨
      (∃ i : Fin 32, r.toNat = i.val ∧ s.pc.toNat + 2 < (s.getReg i).toNat ∧
        execJmpb r s = raised .jumpUnderflow s) ∨
      (31 < r.toNat ∧ execJmpb r s = raised .regIndex s) := by
  unfold execJmpb
  rcases withReg_cases r s _ with ⟨i, h, e⟩ | ⟨h, e⟩ <;> rw [e]
  · by_cases hc : jumpOperand s i > jumpBase s
    · exact .inr (.inl ⟨i, h, hc, by rw [if_pos hc]⟩)
    · exact .inl ⟨i, h, Nat.not_lt.1 hc, by rw [if_neg hc]; rfl⟩
  · exact .inr (.inr ⟨h, rfl⟩)

/-- Everything an allocation can do (R231). -/
theorem allocate_cases (k : Int) (s : State) :
    (k < 0 ∧ allocate k s = raised .heapNegative s) ∨
      (0 ≤ k ∧ s.build.heapMax < s.heap.len + k.toNat ∧ allocate k s = raised .heapOverflow s) ∨
      (0 ≤ k ∧ s.heap.len + k.toNat ≤ s.build.heapMax ∧
        allocate k s = .next ((s.setHeap (s.heap.grow k.toNat)).advance 2)) := by
  by_cases h0 : k < 0
  · exact .inl ⟨h0, by simp [allocate, h0]⟩
  · by_cases h1 : s.heap.len + k.toNat > s.build.heapMax
    · exact .inr (.inl ⟨by omega, h1, by simp [allocate, h0, h1]⟩)
    · exact .inr (.inr ⟨by omega, by omega, by simp [allocate, h0, h1]⟩)

/-- What a state can look like after an instruction: a fault entry; the stop of HLT or IGL; or a completion, which
touches none of status, program store and build, and the heap at most by growing it. -/
inductive Effect (s : State) : State → Prop where
  | fault (c : StopCode) (h : 4 ≤ (stopBits c).toNat) : Effect s (s.raise c)
  | stop (c : StopCode) (h : c = .halted ∨ c = .illegalOpcode) : Effect s (s.stopAfterOpcode c)
  | completes (regs : Vector Word 32) (pc : Word) (eq : Bool) (rem : Word) (k : Nat)
      (h : k = 0 ∨ s.heap.len + k ≤ s.build.heapMax) (heap : Memory) (hh : heap = s.heap ∨ heap = s.heap.grow k) :
      Effect s { s with regs := regs, pc := pc, eq := eq, rem := rem, heap := heap }

/-- A completion that leaves the heap alone. -/
theorem Effect.plain (s : State) (regs : Vector Word 32) (pc : Word) (eq : Bool) (rem : Word) :
    Effect s { s with regs := regs, pc := pc, eq := eq, rem := rem } :=
  Effect.completes regs pc eq rem 0 (.inl rfl) s.heap (.inl rfl)

theorem Effect.of_writeResult (d : Fin 32) (e : Int) (n : Nat) (s : State) :
    ∃ t : State, writeResult d e n s = .next t ∧ Effect s t := by
  rcases writeResult_cases d e n s with ⟨h, -⟩ | ⟨h, -⟩
  · exact ⟨_, h, Effect.plain s _ _ _ _⟩
  · exact ⟨_, h, .fault .arithOverflow (by decide)⟩

theorem Effect.of_regIndex (s : State) : ∃ t : State, raised .regIndex s = .next t ∧ Effect s t :=
  ⟨_, rfl, .fault .regIndex (by decide)⟩

theorem Effect.of_aluBinary (op : Int → Int → Int) (f1 f2 f3 : Byte) (s : State) :
    ∃ t : State, aluBinary op f1 f2 f3 s = .next t ∧ Effect s t := by
  unfold aluBinary
  rcases withReg3_cases f1 f2 f3 s _ with ⟨_, _, _, -, -, -, h⟩ | ⟨-, h⟩ <;> rw [h]
  · exact Effect.of_writeResult _ _ _ s
  · exact Effect.of_regIndex s

theorem Effect.of_aluStep (delta : Int) (r : Byte) (s : State) :
    ∃ t : State, aluStep delta r s = .next t ∧ Effect s t := by
  unfold aluStep
  rcases withReg_cases r s _ with ⟨_, -, h⟩ | ⟨-, h⟩ <;> rw [h]
  · exact Effect.of_writeResult _ _ _ s
  · exact Effect.of_regIndex s

theorem Effect.of_jumpIf (taken : Bool) (r : Byte) (s : State) :
    ∃ t : State, jumpIf taken r s = .next t ∧ Effect s t := by
  rcases jumpIf_cases taken r s with ⟨_, -, h⟩ | ⟨-, h⟩ <;> rw [h]
  · refine ⟨_, rfl, ?_⟩
    cases taken <;> exact Effect.plain s _ _ _ _
  · exact Effect.of_regIndex s

/-- The shape of what any instruction does: it always answers a next state, of one of the three kinds. -/
theorem exec_effect (i : Instr) (s : State) : ∃ t : State, exec i s = .next t ∧ Effect s t := by
  cases i with
  | load r imm =>
    simp only [exec, execLoad]
    rcases withReg_cases r s _ with ⟨_, -, h⟩ | ⟨-, h⟩ <;> rw [h]
    · exact ⟨_, rfl, Effect.plain s _ _ _ _⟩
    · exact Effect.of_regIndex s
  | hlt => exact ⟨_, rfl, .stop .halted (.inl rfl)⟩
  | igl => exact ⟨_, rfl, .stop .illegalOpcode (.inr rfl)⟩
  | add f1 f2 f3 => exact Effect.of_aluBinary _ f1 f2 f3 s
  | sub f1 f2 f3 => exact Effect.of_aluBinary _ f1 f2 f3 s
  | mul f1 f2 f3 => exact Effect.of_aluBinary _ f1 f2 f3 s
  | div f1 f2 f3 =>
    simp only [exec, execDiv]
    rcases withReg3_cases f1 f2 f3 s _ with ⟨i1, i2, i3, -, -, -, h⟩ | ⟨-, h⟩ <;> rw [h]
    · rcases divideInto_cases (srcLeft s.build.arithOrder i1 i2 i3) (srcRight s.build.arithOrder i1 i2 i3)
        (dest s.build.arithOrder i1 i2 i3) s with ⟨-, h⟩ | ⟨-, -, h⟩ | ⟨-, -, h⟩
      · exact ⟨_, h, .fault .divByZero (by decide)⟩
      · exact ⟨_, h, .fault .divOverflow (by decide)⟩
      · exact ⟨_, h, Effect.plain s _ _ _ _⟩
    · exact Effect.of_regIndex s
  | jmp r => exact Effect.of_jumpIf true r s
  | jmpf r =>
    simp only [exec]
    rcases execJmpf_cases r s with ⟨_, -, -, h⟩ | ⟨_, -, -, h⟩ | ⟨-, h⟩ <;> rw [h]
    · exact ⟨_, rfl, Effect.plain s _ _ _ _⟩
    · exact ⟨_, rfl, .fault .pcOverflow (by decide)⟩
    · exact Effect.of_regIndex s
  | jmpb r =>
    simp only [exec]
    rcases execJmpb_cases r s with ⟨_, -, -, h⟩ | ⟨_, -, -, h⟩ | ⟨-, h⟩ <;> rw [h]
    · exact ⟨_, rfl, Effect.plain s _ _ _ _⟩
    · exact ⟨_, rfl, .fault .jumpUnderflow (by decide)⟩
    · exact Effect.of_regIndex s
  | eq s1 s2 pad =>
    simp only [exec, execEq]
    rcases withReg2_cases s1 s2 s _ with ⟨_, _, -, -, h⟩ | ⟨-, h⟩ <;> rw [h]
    · exact ⟨_, rfl, Effect.plain s _ _ _ _⟩
    · exact Effect.of_regIndex s
  | jeq r => exact Effect.of_jumpIf s.eq r s
  | jneq r => exact Effect.of_jumpIf (!s.eq) r s
  | aloc r =>
    simp only [exec, execAloc]
    rcases withReg_cases r s _ with ⟨i, -, h⟩ | ⟨-, h⟩ <;> rw [h]
    · rcases allocate_cases (s.getReg i).toInt s with ⟨-, h⟩ | ⟨-, -, h⟩ | ⟨-, hk, h⟩
      · exact ⟨_, h, .fault .heapNegative (by decide)⟩
      · exact ⟨_, h, .fault .heapOverflow (by decide)⟩
      · exact ⟨_, h, .completes _ _ _ _ _ (.inr hk) _ (.inr rfl)⟩
    · exact Effect.of_regIndex s
  | inc r => exact Effect.of_aluStep _ r s
  | dec r => exact Effect.of_aluStep _ r s

end Sys2Proof.Machine
end

