-- ==== Sys2Proof/Laws/Memory.lean ====
section
/-! SUPPORT. The laws of byte sequences: read after write, and every memory operation keeps the canonical form. -/

namespace Sys2Proof.Machine

/-- The addresses of a cell list rise strictly. -/
abbrev Rising (cs : List Host.Cell) : Prop := cs.Pairwise fun c d => c.1 < d.1

/-- An address below every listed one is unlisted. -/
theorem cellsRead_of_forall_gt {cs : List Host.Cell} {a : Nat} (h : ∀ c ∈ cs, a < c.1) : cellsRead cs a = 0x00#8 := by
  induction cs with
  | nil => rfl
  | cons c cs ih =>
    have hc : a < c.1 := h c (by simp)
    have : ¬c.1 = a := by omega
    simp only [cellsRead, this, if_false]
    exact ih fun d hd => h d (by simp [hd])

/-- Every cell of a written list is the written one or an old one. -/
theorem mem_cellsWrite {cs : List Host.Cell} {a : Nat} {b : Byte} {c : Host.Cell} (h : c ∈ cellsWrite cs a b) :
    (c = (a, b) ∧ b ≠ 0x00#8) ∨ c ∈ cs := by
  induction cs with
  | nil =>
    simp only [cellsWrite] at h
    split at h <;> simp_all
  | cons d cs ih =>
    obtain ⟨k, v⟩ := d
    simp only [cellsWrite] at h
    split at h
    · split at h
      · exact .inr h
      · rename_i hb
        rcases List.mem_cons.1 h with h | h
        · exact .inl ⟨h, hb⟩
        · exact .inr h
    · split at h
      · split at h
        · exact .inr (by simp [h])
        · rename_i hb
          rcases List.mem_cons.1 h with h | h
          · exact .inl ⟨h, hb⟩
          · exact .inr (by simp [h])
      · rcases List.mem_cons.1 h with h | h
        · exact .inr (by simp [h])
        · exact (ih h).imp id fun h => by simp [h]

/-- A write keeps the addresses rising. -/
theorem rising_cellsWrite {cs : List Host.Cell} (a : Nat) (b : Byte) (h : Rising cs) : Rising (cellsWrite cs a b) := by
  induction cs with
  | nil =>
    simp only [cellsWrite]
    split <;> simp [Rising]
  | cons d cs ih =>
    obtain ⟨k, v⟩ := d
    obtain ⟨hk, hcs⟩ := List.pairwise_cons.1 h
    simp only [cellsWrite]
    split
    · rename_i hak
      split
      · exact h
      · refine List.pairwise_cons.2 ⟨fun c hc => ?_, h⟩
        rcases List.mem_cons.1 hc with rfl | hc
        · exact hak
        · exact Nat.lt_trans hak (hk c hc)
    · split
      · rename_i hak
        split
        · exact hcs
        · exact List.pairwise_cons.2 ⟨fun c hc => hak ▸ hk c hc, hcs⟩
      · refine List.pairwise_cons.2 ⟨fun c hc => ?_, ih hcs⟩
        rcases mem_cellsWrite hc with ⟨rfl, -⟩ | hc
        · show k < a
          omega
        · exact hk c hc

/-- Read after write: the written address gives the written byte, every other address what it gave. -/
theorem cellsRead_cellsWrite {cs : List Host.Cell} (h : Rising cs) (a : Nat) (b : Byte) (x : Nat) :
    cellsRead (cellsWrite cs a b) x = if x = a then b else cellsRead cs x := by
  induction cs with
  | nil =>
    simp only [cellsWrite]
    by_cases hx : x = a
    · subst hx
      split <;> simp_all [cellsRead]
    · have : ¬a = x := fun h => hx h.symm
      split <;> simp [cellsRead, this]
  | cons d cs ih =>
    obtain ⟨k, v⟩ := d
    obtain ⟨hk, hcs⟩ := List.pairwise_cons.1 h
    have gone : ∀ y, y ≤ k → cellsRead cs y = 0x00#8 :=
      fun y hy => cellsRead_of_forall_gt fun c hc => Nat.lt_of_le_of_lt hy (hk c hc)
    simp only [cellsWrite]
    split
    · rename_i hak
      have hk' : ¬k = a := by omega
      split
      · rename_i hb
        by_cases hx : x = a
        · subst hx
          simp [cellsRead, hk', gone x (by omega), hb]
        · simp [hx]
      · by_cases hx : x = a
        · simp [cellsRead, hx]
        · have : ¬a = x := fun h => hx h.symm
          simp [cellsRead, hx, this]
    · split
      · rename_i hak
        subst hak
        split
        · rename_i hb
          by_cases hx : x = a
          · simp [hx, gone a (Nat.le_refl a), hb]
          · have : ¬a = x := fun h => hx h.symm
            simp [cellsRead, hx, this]
        · by_cases hx : x = a
          · simp [cellsRead, hx]
          · have : ¬a = x := fun h => hx h.symm
            simp [cellsRead, hx, this]
      · rename_i h1 h2
        simp only [cellsRead, ih hcs]
        by_cases hkx : k = x
        · have : ¬x = a := by omega
          simp [hkx, this]
        · simp [hkx]

/-- A write leaves every other address as it was, whatever the form of the list. -/
theorem cellsRead_cellsWrite_ne (cs : List Host.Cell) {a x : Nat} (b : Byte) (h : x ≠ a) :
    cellsRead (cellsWrite cs a b) x = cellsRead cs x := by
  have h' : ¬a = x := fun e => h e.symm
  induction cs with
  | nil =>
    simp only [cellsWrite]
    split <;> simp [cellsRead, h']
  | cons d cs ih =>
    obtain ⟨k, v⟩ := d
    simp only [cellsWrite]
    split
    · split <;> simp [cellsRead, h']
    · split
      · rename_i hak
        subst hak
        split <;> simp [cellsRead, h']
      · simp [cellsRead, ih]

/-- Dropping cells at or past a bound changes no read below it. -/
theorem cellsRead_filter_lt (cs : List Host.Cell) {n a : Nat} (h : a < n) :
    cellsRead (cs.filter fun c => c.1 < n) a = cellsRead cs a := by
  induction cs with
  | nil => rfl
  | cons c cs ih =>
    obtain ⟨k, v⟩ := c
    by_cases hk : k < n
    · simp [hk, cellsRead, ih]
    · have : ¬k = a := by omega
      simp [hk, cellsRead, ih, this]

/-- After dropping them, an address at or past the bound reads 0x00. -/
theorem cellsRead_filter_ge (cs : List Host.Cell) {n a : Nat} (h : n ≤ a) :
    cellsRead (cs.filter fun c => c.1 < n) a = 0x00#8 := by
  induction cs with
  | nil => rfl
  | cons c cs ih =>
    obtain ⟨k, v⟩ := c
    by_cases hk : k < n
    · have : ¬k = a := by omega
      simp [hk, cellsRead, ih, this]
    · simp [hk, ih]

/-! ### The operations on Memory -/

theorem Memory.read_of_lt {m : Memory} {a : Nat} (h : a < m.len) : m.read a = some (cellsRead m.cells a) := by
  simp [Memory.read, h]

theorem Memory.read_of_ge {m : Memory} {a : Nat} (h : m.len ≤ a) : m.read a = none := by
  simp [Memory.read, Nat.not_lt.2 h]

@[simp] theorem Memory.append_len (m : Memory) (b : Byte) : (m.append b).len = m.len + 1 := rfl

@[simp] theorem Memory.grow_len (m : Memory) (k : Nat) : (m.grow k).len = m.len + k := rfl

@[simp] theorem Memory.place_len (m : Memory) (a : Nat) (b : Byte) : (m.place a b).len = max m.len (a + 1) := rfl

/-- What a byte of an appended sequence reads. -/
theorem Memory.read_append {m : Memory} (h : m.wf) (b : Byte) (a : Nat) :
    (m.append b).read a = if a = m.len then some b else m.read a := by
  unfold Memory.read
  simp only [Memory.append, cellsRead_cellsWrite h.1]
  by_cases ha : a = m.len
  · simp [ha]
  · by_cases hl : a < m.len
    · simp [ha, hl, Nat.lt_succ_of_lt hl]
    · have : ¬a < m.len + 1 := by omega
      simp [ha, hl, this]

/-- What a byte of a grown sequence reads, in any state. -/
theorem Memory.read_grow (m : Memory) (k a : Nat) :
    (m.grow k).read a = if a < m.len then m.read a else if a < m.len + k then some 0x00#8 else none := by
  unfold Memory.read
  simp only [Memory.grow]
  by_cases hl : a < m.len
  · simp [hl, Nat.lt_add_right k hl, cellsRead_filter_lt _ hl]
  · by_cases hk : a < m.len + k
    · simp [hl, hk, cellsRead_filter_ge _ (Nat.not_lt.1 hl)]
    · simp [hl, hk]

/-- What a placed cell reads. -/
theorem Memory.cellsRead_place {m : Memory} (h : m.wf) (a : Nat) (b : Byte) (x : Nat) :
    cellsRead (m.place a b).cells x = if x = a then b else cellsRead m.cells x :=
  cellsRead_cellsWrite h.1 a b x

theorem Memory.wf_append {m : Memory} (h : m.wf) (b : Byte) : (m.append b).wf := by
  refine ⟨rising_cellsWrite _ _ h.1, fun c hc => ?_⟩
  rcases mem_cellsWrite hc with ⟨rfl, hb⟩ | hc
  · exact ⟨Nat.lt_succ_self _, hb⟩
  · exact ⟨Nat.lt_succ_of_lt (h.2 c hc).1, (h.2 c hc).2⟩

theorem Memory.wf_grow {m : Memory} (h : m.wf) (k : Nat) : (m.grow k).wf := by
  refine ⟨h.1.filter _, fun c hc => ?_⟩
  have hm : c ∈ m.cells := (List.mem_filter.1 hc).1
  exact ⟨Nat.lt_add_right k (h.2 c hm).1, (h.2 c hm).2⟩

theorem Memory.wf_place {m : Memory} (h : m.wf) (a : Nat) (b : Byte) : (m.place a b).wf := by
  refine ⟨rising_cellsWrite _ _ h.1, fun c hc => ?_⟩
  rcases mem_cellsWrite hc with ⟨rfl, hb⟩ | hc
  · exact ⟨by simp only [Memory.place]; omega, hb⟩
  · have := h.2 c hc
    exact ⟨by simp only [Memory.place]; omega, this.2⟩

theorem Memory.wf_placeAll {m : Memory} (h : m.wf) (a : Nat) (bs : List Byte) : (m.placeAll a bs).wf := by
  induction bs generalizing m a with
  | nil => exact h
  | cons b bs ih => exact ih (Memory.wf_place h a b) (a + 1)

/-- The length after placing consecutive bytes. -/
theorem Memory.placeAll_len (m : Memory) (a : Nat) (bs : List Byte) :
    m.len ≤ (m.placeAll a bs).len ∧ (bs ≠ [] → a + bs.length ≤ (m.placeAll a bs).len) := by
  induction bs generalizing m a with
  | nil => simp [Memory.placeAll]
  | cons b bs ih =>
    obtain ⟨h1, h2⟩ := ih (m.place a b) (a + 1)
    simp only [Memory.place_len] at h1
    refine ⟨by simp only [Memory.placeAll]; omega, fun _ => ?_⟩
    simp only [Memory.placeAll, List.length_cons]
    by_cases hb : bs = []
    · subst hb
      simp only [List.length_nil]
      omega
    · have := h2 hb
      omega

/-- What placed consecutive bytes read, and what every other address reads. -/
theorem Memory.cellsRead_placeAll {m : Memory} (h : m.wf) (a : Nat) (bs : List Byte) (x : Nat) :
    cellsRead (m.placeAll a bs).cells x =
      if a ≤ x then (bs[x - a]?).getD (cellsRead m.cells x) else cellsRead m.cells x := by
  induction bs generalizing m a with
  | nil => simp [Memory.placeAll]
  | cons b bs ih =>
    simp only [Memory.placeAll, ih (Memory.wf_place h a b), Memory.cellsRead_place h]
    by_cases hx : x = a
    · subst hx
      have : ¬x + 1 ≤ x := by omega
      simp [this]
    · by_cases hax : a + 1 ≤ x
      · have e : x - a = (x - (a + 1)) + 1 := by omega
        have : a ≤ x := by omega
        simp [hx, hax, this, e]
      · have : ¬a ≤ x := by omega
        simp [hx, hax, this]

end Sys2Proof.Machine
end

