-- ==== Sys2Proof/Laws/Fetch.lean ====
section
/-! SUPPORT. What the fetch answers in terms of the bytes at pc, and what the cycle can do around `exec`. -/

namespace Sys2Proof.Machine

/-- Keeping what exists of four entries, one after the other. -/
theorem filterMap_four {α : Type} (f : Nat → Option α) :
    [0, 1, 2, 3].filterMap f = (f 0).toList ++ ((f 1).toList ++ ((f 2).toList ++ (f 3).toList)) := by
  cases h0 : f 0 <;> cases h1 : f 1 <;> cases h2 : f 2 <;> cases h3 : f 3 <;> simp [h0, h1, h2, h3]

/-- The fetched bytes are the program bytes at pc, cut at the end of the program. -/
theorem fetchBytes_eq (s : State) :
    s.fetchBytes =
      (if s.pc.toNat < s.prog.len then [progByte s 0] else []) ++
      ((if s.pc.toNat + 1 < s.prog.len then [progByte s 1] else []) ++
      ((if s.pc.toNat + 2 < s.prog.len then [progByte s 2] else []) ++
      (if s.pc.toNat + 3 < s.prog.len then [progByte s 3] else []))) := by
  have one : ∀ k : Nat, (s.prog.read (s.pc.toNat + k)).toList =
      if s.pc.toNat + k < s.prog.len then [progByte s k] else [] := by
    intro k
    by_cases h : s.pc.toNat + k < s.prog.len <;> simp [Memory.read, h, progByte]
  have hr : List.range maxLength = [0, 1, 2, 3] := by decide
  rw [State.fetchBytes, hr, filterMap_four, one 0, one 1, one 2, one 3]
  rfl

/-- With every byte of the instruction inside the program, the fetch reads the instruction at pc. -/
theorem fetch_of_whole {s : State} (h : s.pc.toNat + opcodeLength (opcodeAtPc s) ≤ s.prog.len) :
    s.fetch = .ok (instrAtPc s) := by
  have h0 : s.pc.toNat < s.prog.len := by
    have : 1 ≤ opcodeLength (opcodeAtPc s) := by cases opcodeAtPc s <;> decide
    omega
  unfold State.fetch
  rw [fetchBytes_eq, if_pos h0]
  simp only [List.singleton_append, decode]
  rw [show opcodeOf s.build.opcodes (progByte s 0) = opcodeAtPc s from rfl]
  unfold instrAtPc
  cases ho : opcodeAtPc s <;> rw [ho] at h <;> simp only [opcodeLength, opcodeFormat, formatLength] at h <;>
    simp only [consume] <;>
    first
    | rfl
    | (have h1 : s.pc.toNat + 1 < s.prog.len := by omega
       have h2 : s.pc.toNat + 2 < s.prog.len := by omega
       have h3 : s.pc.toNat + 3 < s.prog.len := by omega
       rw [if_pos h1, if_pos h2, if_pos h3]
       rfl)
    | (have h1 : s.pc.toNat + 1 < s.prog.len := by omega
       rw [if_pos h1]
       rfl)

/-- With an operand byte missing, the fetch answers `truncated`. -/
theorem fetch_of_short {s : State} (h0 : s.pc.toNat < s.prog.len)
    (h : s.prog.len < s.pc.toNat + opcodeLength (opcodeAtPc s)) : s.fetch = .error .truncated := by
  unfold State.fetch
  rw [fetchBytes_eq, if_pos h0]
  simp only [List.singleton_append, decode]
  rw [show opcodeOf s.build.opcodes (progByte s 0) = opcodeAtPc s from rfl]
  have h3 : ¬s.pc.toNat + 3 < s.prog.len := by
    have : opcodeLength (opcodeAtPc s) ≤ 4 := by cases opcodeAtPc s <;> decide
    omega
  cases ho : opcodeAtPc s <;> rw [ho] at h <;> simp only [opcodeLength, opcodeFormat, formatLength] at h <;>
    simp only [consume] <;>
    first
    | omega
    | (have h1 : ¬s.pc.toNat + 1 < s.prog.len := by omega
       have h2 : ¬s.pc.toNat + 2 < s.prog.len := by omega
       rw [if_neg h1, if_neg h2, if_neg h3]
       rfl)
    | (rw [if_neg h3]
       by_cases h1 : s.pc.toNat + 1 < s.prog.len
       · rw [if_pos h1]
         by_cases h2 : s.pc.toNat + 2 < s.prog.len
         · rw [if_pos h2]
           rfl
         · rw [if_neg h2]
           rfl
       · have h2 : ¬s.pc.toNat + 2 < s.prog.len := by omega
         rw [if_neg h1, if_neg h2]
         rfl)

/-- Everything a step can do: nothing (sticky); END_OF_PROGRAM; TRUNCATED; or `exec` of the instruction at pc. -/
theorem step_cases (s : State) :
    (s.sticky = true ∧ step s = .next s) ∨
      (s.sticky = false ∧ s.prog.len ≤ s.pc.toNat ∧ step s = .next s.stopAtEnd) ∨
      (s.sticky = false ∧ s.pc.toNat < s.prog.len ∧ s.prog.len < s.pc.toNat + opcodeLength (opcodeAtPc s) ∧
        step s = raised .truncated s) ∨
      (s.sticky = false ∧ s.pc.toNat + opcodeLength (opcodeAtPc s) ≤ s.prog.len ∧
        step s = exec (instrAtPc s) (s.setCode .running)) := by
  unfold step cycle
  cases hs : s.sticky
  · by_cases he : s.prog.len ≤ s.pc.toNat
    · exact .inr (.inl ⟨rfl, he, by simp [State.atEnd, he]⟩)
    · by_cases hl : s.pc.toNat + opcodeLength (opcodeAtPc s) ≤ s.prog.len
      · exact .inr (.inr (.inr ⟨rfl, hl, by simp [State.atEnd, he, fetch_of_whole hl]⟩))
      · exact .inr (.inr (.inl ⟨rfl, by omega, by omega,
          by simp [State.atEnd, he, fetch_of_short (s := s) (by omega) (by omega)]⟩))
  · exact .inl ⟨rfl, by simp⟩

/-- The instruction at pc is of the opcode at pc. -/
@[simp] theorem instrAtPc_opcode (s : State) : (instrAtPc s).opcode = opcodeAtPc s := by
  unfold instrAtPc
  cases opcodeAtPc s <;> rfl

end Sys2Proof.Machine
end

