-- ==== Sys2Proof/Laws/HostPort.lean ====
section
/-! SUPPORT. What the shared operations under the host commands can answer, once for each. -/

namespace Sys2Proof.Machine

/-- STEP answers the state after one step and that step's result (R37). -/
theorem serveStep_eq_some_iff (s t : State) (r : Response) :
    serveStep s = some (t, r) ↔ step s = .next t ∧ r = stepResponse t := by
  unfold serveStep
  cases step s with
  | next u =>
    constructor
    · intro h
      cases h
      exact ⟨rfl, rfl⟩
    · rintro ⟨h, rfl⟩
      cases h
      rfl
  | fault f => cases f
  | refused f => simp

/-- The result of a step is CONTINUE exactly from the code RUNNING. -/
theorem stepResponse_eq_continues_iff (s : State) : stepResponse s = .continues ↔ s.code = 0#4 := by
  by_cases h : s.code = 0#4 <;> simp [stepResponse, stopBits, h]

/-- The result of a step that stops. -/
theorem stepResponse_of_stop {s : State} (h : s.code ≠ 0#4) : stepResponse s = .stop s.code := by
  simp [stepResponse, stopBits, h]

/-- Everything one turn of RUN can do: the step stops, and RUN returns its result; or it continues, and RUN goes on. -/
theorem serveRun_succ_cases (fuel : Nat) (s t : State) (r : Response) :
    serveRun (fuel + 1) s = some (t, r) ↔
      (step s = .next t ∧ t.code ≠ 0#4 ∧ r = .stop t.code) ∨
        ∃ u : State, step s = .next u ∧ u.code = 0#4 ∧ serveRun fuel u = some (t, r) := by
  cases hs : step s with
  | next u =>
    have e : serveStep s = some (u, stepResponse u) := (serveStep_eq_some_iff s u _).2 ⟨hs, rfl⟩
    by_cases hu : u.code = 0#4
    · rw [serveRun, e, (stepResponse_eq_continues_iff u).2 hu]
      constructor
      · exact fun h => .inr ⟨u, rfl, hu, h⟩
      · rintro (⟨h, hc, -⟩ | ⟨v, h, -, hv⟩)
        · cases h
          exact absurd hu hc
        · cases h
          exact hv
    · rw [serveRun, e, stepResponse_of_stop hu]
      constructor
      · intro h
        cases h
        exact .inl ⟨rfl, hu, rfl⟩
      · rintro (⟨h, -, rfl⟩ | ⟨v, h, hv, -⟩)
        · cases h
          rfl
        · cases h
          exact absurd hv hu
  | fault f => cases f
  | refused f => simp [serveRun, serveStep, hs]

/-- RUN keeps whatever relation every step keeps. -/
theorem serveRun_induction {P : State → State → Prop} (htrans : ∀ a b c, P a b → P b c → P a c)
    (hstep : ∀ s t, step s = .next t → P s t) :
    ∀ (fuel : Nat) (s t : State) (r : Response), serveRun fuel s = some (t, r) → P s t := by
  intro fuel
  induction fuel with
  | zero => simp [serveRun]
  | succ n ih =>
    intro s t r h
    rcases (serveRun_succ_cases n s t r).1 h with ⟨h, -⟩ | ⟨u, h, -, hu⟩
    · exact hstep s t h
    · exact htrans s u t (hstep s u h) (ih u t r hu)

/-- Everything a host command can do to the state: RESET, an append below PROG_MAX, a register or flag write, steps,
or nothing. -/
theorem serve_cases {P : State → State → Prop} (hrefl : ∀ a, P a a) (htrans : ∀ a b c, P a b → P b c → P a c)
    (hstep : ∀ s t, step s = .next t → P s t) (fuel : Nat) (c : Command) (s t : State) (r : Response)
    (h : serve fuel c s = some (t, r)) (hreset : c = .reset → P s s.afterReset)
    (happend : ∀ b, c = .append b → s.prog.len < s.build.progMax → P s (s.setProg (s.prog.append b)))
    (hreg : ∀ (i : Fin 32) v, c = .regWrite i.val v → P s (s.setReg i v))
    (hflag : ∀ f, c = .flagWrite f → P s (s.setEq f)) : P s t := by
  cases c <;> simp only [serve, serveAppend, serveRegRead, serveRegWrite] at h
  case reset =>
    cases h
    exact hreset rfl
  case append b =>
    split at h <;> cases h
    · exact happend b rfl ‹_›
    · exact hrefl s
  case step => exact hstep s t ((serveStep_eq_some_iff s t r).1 h).1
  case run => exact serveRun_induction htrans hstep fuel s t r h
  case regRead i => split at h <;> cases h <;> exact hrefl s
  case regWrite i v =>
    split at h <;> cases h
    · exact hreg ⟨i, ‹_›⟩ v rfl
    · exact hrefl s
  case flagWrite f =>
    cases h
    exact hflag f rfl
  all_goals
    cases h
    exact hrefl s

end Sys2Proof.Machine
end

