-- ==== Sys2Proof/Laws/PerInstr.lean ====
section
/-! SUPPORT. The statements made of each instruction as syntax, one lemma per constructor. -/

namespace Sys2Proof.Laws

/-- The encoder writes exactly as many bytes as the opcode's length (R81, R82), the first of them the opcode's byte. -/
def EncodedLength.Statement (i : Instr) : Prop :=
  ∀ (m : OpcodeMap) (bs : List Byte), encode m i = some bs →
    bs.length = opcodeLength i.opcode ∧ bs.head? = opcodeByte m i.opcode

theorem EncodedLength.load (r : Byte) (imm : Imm16) : EncodedLength.Statement (.load r imm) := by
  rintro m bs ⟨⟩
  exact ⟨rfl, rfl⟩

theorem EncodedLength.hlt : EncodedLength.Statement .hlt := by
  rintro m bs ⟨⟩
  exact ⟨rfl, rfl⟩

theorem EncodedLength.add (f1 f2 f3 : Byte) : EncodedLength.Statement (.add f1 f2 f3) := by
  rintro m bs ⟨⟩
  exact ⟨rfl, rfl⟩

theorem EncodedLength.sub (f1 f2 f3 : Byte) : EncodedLength.Statement (.sub f1 f2 f3) := by
  rintro m bs ⟨⟩
  exact ⟨rfl, rfl⟩

theorem EncodedLength.mul (f1 f2 f3 : Byte) : EncodedLength.Statement (.mul f1 f2 f3) := by
  rintro m bs ⟨⟩
  exact ⟨rfl, rfl⟩

theorem EncodedLength.div (f1 f2 f3 : Byte) : EncodedLength.Statement (.div f1 f2 f3) := by
  rintro m bs ⟨⟩
  exact ⟨rfl, rfl⟩

theorem EncodedLength.jmp (r : Byte) : EncodedLength.Statement (.jmp r) := by
  rintro m bs ⟨⟩
  exact ⟨rfl, rfl⟩

theorem EncodedLength.jmpf (r : Byte) : EncodedLength.Statement (.jmpf r) := by
  rintro m bs ⟨⟩
  exact ⟨rfl, rfl⟩

theorem EncodedLength.jmpb (r : Byte) : EncodedLength.Statement (.jmpb r) := by
  rintro m bs ⟨⟩
  exact ⟨rfl, rfl⟩

theorem EncodedLength.eq (s1 s2 pad : Byte) : EncodedLength.Statement (.eq s1 s2 pad) := by
  rintro m bs ⟨⟩
  exact ⟨rfl, rfl⟩

theorem EncodedLength.jeq (r : Byte) : EncodedLength.Statement (.jeq r) := by
  rintro m bs ⟨⟩
  exact ⟨rfl, rfl⟩

theorem EncodedLength.jneq (r : Byte) : EncodedLength.Statement (.jneq r) := by
  rintro m bs ⟨⟩
  exact ⟨rfl, rfl⟩

theorem EncodedLength.aloc (r : Byte) : EncodedLength.Statement (.aloc r) := by
  rintro m bs ⟨⟩
  exact ⟨rfl, rfl⟩

theorem EncodedLength.inc (r : Byte) : EncodedLength.Statement (.inc r) := by
  rintro m bs ⟨⟩
  exact ⟨rfl, rfl⟩

theorem EncodedLength.dec (r : Byte) : EncodedLength.Statement (.dec r) := by
  rintro m bs ⟨⟩
  exact ⟨rfl, rfl⟩

/-- IGL has no encoding (R85), so nothing is asked of it. -/
theorem EncodedLength.igl : EncodedLength.Statement .igl := by
  intro m bs h
  cases h

end Sys2Proof.Laws
end

