-- ==== Sys2Proof/Tests/Slice0.lean ====
section
/-! SUPPORT. The writer's own tests. Expected values come from spec/95_test_vectors.md (the vector's id stands in the
docstring) or by hand from the layouts of 30_encoding.md R82. The `witness_` theorems at the end show, for each
obligation with hypotheses, concrete inputs that meet them, clause by clause at the boundary values. -/

namespace Sys2Proof.Tests

open Sys2Proof Sys2Proof.Machine

/-! ### Helpers -/

/-- The state after RESET, APPEND of the bytes, REG_WRITE of the registers, FLAG_WRITE (the conventions of
95_test_vectors.md). -/
def start (bytes : List Byte) (regs : List (Fin 32 × Word)) (eq : Bool := false) (build : Config := Config.default) :
    State :=
  regs.foldl (fun s r => s.setReg r.1 r.2)
    (bytes.foldl (fun s b => (serveAppend b s).1) ({ State.reset with build := build } : State) |>.setEq eq)

/-- ARITH_OVERFLOW = fault. -/
def faulting : Config := { Config.default with arithOverflow := .fault }

/-- ARITH_ORDER = DstSrcSrc. -/
def dstFirst : Config := { Config.default with arithOrder := .dstSrcSrc }

/-- HEAP_MAX = 10. -/
def heapOfTen : Config := { Config.default with heapMax := 10 }

/-- The heap grown by an earlier ALOC of k. -/
def grown (k : Nat) (s : State) : State := s.setHeap (s.heap.grow k)

/-- The state a step or an instruction answers, if it answers one. -/
def nextOf : Result → Option State
  | .next t => some t
  | .fault _ => none
  | .refused _ => none

/-- A check of the next state after one step. -/
def stepCheck (s : State) (check : State → Bool) : Bool := ((nextOf (step s)).map check).getD false

/-- A check of the next state after one instruction. -/
def execCheck (i : Instr) (s : State) (check : State → Bool) : Bool := ((nextOf (exec i s)).map check).getD false

/-- What a check that passes says: there is a next state, and it passes. -/
theorem exists_next_of_check {r : Result} {check : State → Bool} (h : ((nextOf r).map check).getD false = true) :
    ∃ t : State, r = .next t ∧ check t = true := by
  cases r with
  | next t => exact ⟨t, rfl, h⟩
  | fault f => cases f
  | refused f => cases h

/-! ### WellFormed: an ill-formed term for each check -/

theorem test_register_32_is_ill_formed : (Instr.load 0x20#8 0x0001#16).wellFormed = false := by decide
theorem test_register_31_is_well_formed : (Instr.load 0x1F#8 0x0001#16).wellFormed = true := by decide
theorem test_third_field_32_is_ill_formed : (Instr.add 0x00#8 0x01#8 0x20#8).regsLegal = false := by decide
theorem test_eq_second_field_is_checked : (Instr.eq 0x00#8 0x20#8 0x00#8).wellFormed = false := by decide
theorem test_eq_pad_is_not_checked : (Instr.eq 0x00#8 0x1F#8 0xFF#8).wellFormed = true := by decide
theorem test_igl_is_ill_formed : Instr.igl.wellFormed = false ∧ Instr.igl.regsLegal = true := by decide

/-! ### Decode: a word of every constructor written from R82 and the default bytes of R84, first byte lowest -/

theorem test_decode_load : decodeTableWord 32 0x34120500 = some (.load 0x05#8 0x1234#16) := by decide
theorem test_decode_hlt : decodeTableWord 8 0x01 = some .hlt := by decide
theorem test_decode_add : decodeTableWord 32 0x03020102 = some (.add 0x01#8 0x02#8 0x03#8) := by decide
theorem test_decode_sub : decodeTableWord 32 0x1F001E03 = some (.sub 0x1E#8 0x00#8 0x1F#8) := by decide
theorem test_decode_mul : decodeTableWord 32 0x06050404 = some (.mul 0x04#8 0x05#8 0x06#8) := by decide
theorem test_decode_div : decodeTableWord 32 0x09080705 = some (.div 0x07#8 0x08#8 0x09#8) := by decide
theorem test_decode_jmp : decodeTableWord 16 0x0A06 = some (.jmp 0x0A#8) := by decide
theorem test_decode_jmpf : decodeTableWord 16 0x0B07 = some (.jmpf 0x0B#8) := by decide
theorem test_decode_jmpb : decodeTableWord 16 0x0C08 = some (.jmpb 0x0C#8) := by decide
theorem test_decode_eq : decodeTableWord 32 0xFF020109 = some (.eq 0x01#8 0x02#8 0xFF#8) := by decide
theorem test_decode_jeq : decodeTableWord 16 0x0D0A = some (.jeq 0x0D#8) := by decide
theorem test_decode_jneq : decodeTableWord 16 0x0E0B = some (.jneq 0x0E#8) := by decide
theorem test_decode_aloc : decodeTableWord 16 0x0F0C = some (.aloc 0x0F#8) := by decide
theorem test_decode_inc : decodeTableWord 16 0x100D = some (.inc 0x10#8) := by decide
theorem test_decode_dec : decodeTableWord 16 0x200E = some (.dec 0x20#8) := by decide
theorem test_decode_igl : decodeTableWord 8 0x0F = some .igl ∧ decodeTableWord 8 0xFF = some .igl := by decide

/-- A list one byte short of its instruction is rejected by name (T3, T6). -/
theorem test_decode_short : decode OpcodeMap.default [0x00#8, 0x00#8, 0x01#8] = .error .truncated ∧
    decode OpcodeMap.default [0x09#8, 0x00#8, 0x00#8] = .error .truncated ∧
    decode OpcodeMap.default [] = .error .noOpcode := ⟨rfl, rfl, rfl⟩

/-! ### One step -/

/-- LD1. -/
theorem test_load_zero_extends : stepCheck (start [0x00#8, 0x05#8, 0xFF#8, 0xFF#8] [])
    (fun t => t.getReg 5 = 65535#32 && t.pc = 4#32 && t.status = 0x00#8) = true := by decide

/-- LD2. -/
theorem test_load_register_31 : stepCheck (start [0x00#8, 0x1F#8, 0x80#8, 0x00#8] [])
    (fun t => t.getReg 31 = 32768#32 && t.getReg 30 = 0#32) = true := by decide

/-- V8, HI4. -/
theorem test_hlt_stops_after_its_byte : stepCheck (start [0x01#8, 0xFF#8] [(3, 9#32)])
    (fun t => t.pc = 1#32 && t.status = 0x01#8 && t.getReg 3 = 9#32) = true := by decide

/-- HI2. -/
theorem test_igl_lowest_byte : stepCheck (start [0x0F#8] []) (fun t => t.pc = 1#32 && t.status = 0x03#8) = true := by
  decide

/-- HI3. -/
theorem test_igl_stops_after_its_byte : stepCheck (start [0xFF#8, 0x00#8, 0x00#8, 0x00#8, 0x01#8] [])
    (fun t => t.pc = 1#32 && t.status = 0x03#8) = true := by decide

/-- AL2. -/
theorem test_add_wraps : stepCheck (start [0x02#8, 0x00#8, 0x01#8, 0x02#8] [(0, 0x7FFFFFFF#32), (1, 1#32)])
    (fun t => t.getReg 2 = 0x80000000#32 && t.pc = 4#32 && t.eq = false) = true := by decide

/-- AL29. -/
theorem test_add_destination_first : stepCheck (start [0x02#8, 0x00#8, 0x01#8, 0x02#8] [(1, 4#32), (2, 5#32)] false dstFirst)
    (fun t => t.getReg 0 = 9#32 && t.getReg 2 = 5#32) = true := by decide

/-- AL7. -/
theorem test_sub_order : stepCheck (start [0x03#8, 0x01#8, 0x00#8, 0x02#8] [(0, 10#32), (1, 3#32)])
    (fun t => t.getReg 2 = 0xFFFFFFF9#32 && t.pc = 4#32) = true := by decide

/-- AL30. -/
theorem test_sub_destination_first : stepCheck (start [0x03#8, 0x00#8, 0x01#8, 0x02#8] [(1, 4#32), (2, 5#32)] false dstFirst)
    (fun t => t.getReg 0 = 0xFFFFFFFF#32) = true := by decide

/-- AL12. -/
theorem test_mul_wraps : stepCheck (start [0x04#8, 0x00#8, 0x01#8, 0x02#8] [(0, 0x80000000#32), (1, 0xFFFFFFFF#32)])
    (fun t => t.getReg 2 = 0x80000000#32 && t.pc = 4#32) = true := by decide

/-- AL13. -/
theorem test_mul_overflow_fault : stepCheck
    (start [0x04#8, 0x00#8, 0x01#8, 0x02#8] [(0, 0x80000000#32), (1, 0xFFFFFFFF#32)] false faulting)
    (fun t => t.status = 0x08#8 && t.pc = 0#32 && t.getReg 2 = 0#32) = true := by decide

/-- AL16: the destination is the dividend; rem comes from the old value. -/
theorem test_div_into_dividend : stepCheck (start [0x05#8, 0x00#8, 0x01#8, 0x00#8] [(0, 7#32), (1, 2#32)])
    (fun t => t.getReg 0 = 3#32 && t.rem = 1#32 && t.pc = 4#32) = true := by decide

/-- AL17. -/
theorem test_div_rounds_toward_zero : stepCheck (start [0x05#8, 0x00#8, 0x01#8, 0x02#8] [(0, 0xFFFFFFF9#32), (1, 2#32)])
    (fun t => t.getReg 2 = 0xFFFFFFFD#32 && t.rem = 0xFFFFFFFF#32) = true := by decide

/-- CF1. -/
theorem test_jmp_absolute : stepCheck (start [0x06#8, 0x01#8] [(1, 20#32)])
    (fun t => t.pc = 20#32 && t.status = 0x00#8) = true := by decide

/-- T18, first step. -/
theorem test_jmp_unsigned : stepCheck (start [0x06#8, 0x00#8] [(0, 0xFFFFFFFF#32)])
    (fun t => t.pc = 0xFFFFFFFF#32 && t.status = 0x00#8) = true := by decide

/-- V3. -/
theorem test_jmpf_from_after_the_instruction :
    stepCheck (start [0x07#8, 0x00#8, 0x00#8, 0x00#8, 0x01#8, 0x00#8, 0x00#8, 0x00#8] [(0, 2#32)])
      (fun t => t.pc = 4#32 && t.status = 0x00#8) = true := by decide

/-- CF5 and CF6. -/
theorem test_jmpf_boundary :
    stepCheck (start [0x07#8, 0x00#8] [(0, 0xFFFFFFFD#32)]) (fun t => t.pc = 0xFFFFFFFF#32 && t.status = 0x00#8) = true ∧
    stepCheck (start [0x07#8, 0x00#8] [(0, 0xFFFFFFFE#32)]) (fun t => t.pc = 0#32 && t.status = 0x09#8) = true := by
  decide

/-- CF8 and CF9, the sixth step: the jump stands at 10. -/
theorem test_jmpb_boundary :
    stepCheck ((start (List.replicate 10 0x0D#8 ++ [0x08#8, 0x04#8]) [(4, 12#32)]).setPc 10#32)
      (fun t => t.pc = 0#32 && t.status = 0x00#8) = true ∧
    stepCheck ((start (List.replicate 10 0x0D#8 ++ [0x08#8, 0x04#8]) [(4, 13#32)]).setPc 10#32)
      (fun t => t.pc = 10#32 && t.status = 0x0A#8) = true := by decide

/-- CF12: the offset is unsigned. -/
theorem test_jmpb_unsigned : stepCheck (start [0x08#8, 0x00#8] [(0, 0xFFFFFFFF#32)])
    (fun t => t.pc = 0#32 && t.status = 0x0A#8) = true := by decide

/-- CF16: all 32 bits are compared. -/
theorem test_eq_all_bits : stepCheck (start [0x09#8, 0x00#8, 0x01#8, 0x00#8] [(0, 0xFFFFFFFF#32), (1, 65535#32)] true)
    (fun t => !t.eq && t.pc = 4#32) = true := by decide

/-- T11. -/
theorem test_eq_pad_byte : stepCheck (start [0x09#8, 0x00#8, 0x00#8, 0xFF#8] []) (fun t => t.eq && t.pc = 4#32) = true := by
  decide

/-- CF17 and CF18. -/
theorem test_jeq : stepCheck (start [0x0A#8, 0x00#8] [(0, 7#32)] true) (fun t => t.pc = 7#32 && t.eq) = true ∧
    stepCheck (start [0x0A#8, 0x00#8] [(0, 7#32)]) (fun t => t.pc = 2#32) = true := by decide

/-- CF19: the register is checked though the jump would not be taken. -/
theorem test_jeq_checks_register : stepCheck (start [0x0A#8, 0x40#8] [])
    (fun t => t.pc = 0#32 && t.status = 0x05#8) = true := by decide

/-- CF20 and CF21. -/
theorem test_jneq : stepCheck (start [0x0B#8, 0x02#8] [(2, 12#32)]) (fun t => t.pc = 12#32) = true ∧
    stepCheck (start [0x0B#8, 0x02#8] [(2, 12#32)] true) (fun t => t.pc = 2#32) = true := by decide

/-- HP1. -/
theorem test_aloc_zero_fills : stepCheck (start [0x0C#8, 0x00#8] [(0, 7#32)])
    (fun t => t.heap.len = 7 && t.heap.read 6 = some 0x00#8 && t.heap.read 7 = none && t.pc = 2#32 &&
      t.getReg 0 = 7#32) = true := by decide

/-- HP3 and HP4. -/
theorem test_aloc_boundary :
    stepCheck (grown 7 (start [0x0C#8, 0x00#8] [(0, 4#32)] false heapOfTen))
      (fun t => t.heap.len = 7 && t.status = 0x0C#8 && t.pc = 0#32) = true ∧
    stepCheck (grown 7 (start [0x0C#8, 0x00#8] [(0, 3#32)] false heapOfTen))
      (fun t => t.heap.len = 10 && t.status = 0x00#8 && t.pc = 2#32) = true := by decide

/-- AL24. -/
theorem test_inc : stepCheck (start [0x0D#8, 0x03#8] [(3, 41#32)]) (fun t => t.getReg 3 = 42#32 && t.pc = 2#32) = true := by
  decide

/-- AL25. -/
theorem test_inc_wraps : stepCheck (start [0x0D#8, 0x00#8] [(0, 0x7FFFFFFF#32)])
    (fun t => t.getReg 0 = 0x80000000#32) = true := by decide

/-- AL26. -/
theorem test_dec : stepCheck (start [0x0E#8, 0x00#8] []) (fun t => t.getReg 0 = 0xFFFFFFFF#32 && t.pc = 2#32) = true := by
  decide

/-- AL28. -/
theorem test_dec_overflow_fault : stepCheck (start [0x0E#8, 0x00#8] [(0, 0x80000000#32)] false faulting)
    (fun t => t.status = 0x08#8 && t.pc = 0#32 && t.getReg 0 = 0x80000000#32) = true := by decide

/-! ### The cycle and the order of checks -/

/-- T1, V7. -/
theorem test_end_of_program : stepCheck State.reset (fun t => t.status = 0x02#8 && t.pc = 0#32) = true := by decide

/-- T6. -/
theorem test_eq_pad_byte_must_exist : stepCheck (start [0x09#8, 0x00#8, 0x00#8] [])
    (fun t => t.status = 0x04#8 && t.pc = 0#32 && t.eq = false) = true := by decide

/-- T13: the register check comes before the divisor check. -/
theorem test_register_check_before_divisor : stepCheck (start [0x05#8, 0x20#8, 0x01#8, 0x00#8] [])
    (fun t => t.status = 0x05#8 && t.pc = 0#32) = true := by decide

/-- A table word placed at the fetch runs: DEC x3 (word 0x030E). -/
theorem test_fetch_word : stepCheck (State.reset.withFetchWord 16 0x030E)
    (fun t => t.getReg 3 = 0xFFFFFFFF#32 && t.pc = 2#32 && t.status = 0x00#8) = true := by decide

/-! ### Host commands and assembler -/

/-- HC6 and HC7, after V10: two steps, then the reads. -/
theorem test_sticky_fault :
    (serveAll 1 [.step, .statusRead, .regWrite 0 1#32, .step, .regRead 32]
      (start [0x05#8, 0x00#8, 0x01#8, 0x02#8] [(0, 5#32)])).map Prod.snd =
      some [.stop 6#4, .byte 0x06#8, .ok, .stop 6#4, .cmdError] := by decide

/-- P6: END_OF_PROGRAM is not sticky. -/
theorem test_append_after_end :
    (serveAll 9 [.append 0x0D#8, .append 0x00#8, .run, .append 0x0D#8, .append 0x00#8, .run, .regRead 0, .pcRead]
      State.reset).map Prod.snd =
      some [.ok, .ok, .stop 2#4, .ok, .ok, .stop 2#4, .word 2#32, .word 4#32] := by decide

/-- AS2 and AS6. -/
theorem test_assemble :
    (Assembler.assemble OpcodeMap.default "load $0 #-1\n".toList).toOption = some [0x00#8, 0x00#8, 0xFF#8, 0xFF#8] ∧
    (Assembler.assemble OpcodeMap.default "eq $4 #1280\n".toList).toOption = some [0x09#8, 0x04#8, 0x05#8, 0x00#8] := by
  decide

/-- AS11 to AS15. -/
theorem test_assemble_refuses :
    (Assembler.assemble OpcodeMap.default "load $32 #0\n".toList).toOption = none ∧
    (Assembler.assemble OpcodeMap.default "LOAD $0 #1\n".toList).toOption = none ∧
    (Assembler.assemble OpcodeMap.default "igl $0 #0\n".toList).toOption = none ∧
    (Assembler.assemble OpcodeMap.default "load $0 #2147483648\n".toList).toOption = none ∧
    (Assembler.assemble OpcodeMap.default "load $0 500\n".toList).toOption = none := by decide

/-! ### Witnesses: encoding -/

/-- An injective map other than the default: LOAD and DEC exchanged. -/
def swapped : OpcodeMap := { OpcodeMap.default with load := 0x0E#8, dec := 0x00#8 }

theorem witness_decodeEncodeRoundTrip : OpcodeMap.default.wf ∧ swapped.wf ∧
    Instr.igl = .igl ∧ Instr.load 0xFF#8 0xFFFF#16 ≠ .igl := by decide

theorem witness_encodeDecodeRoundTrip :
    (decode swapped [0x0E#8, 0x1F#8, 0x80#8, 0x00#8, 0x01#8] = .ok (.load 0x1F#8 0x8000#16, [0x01#8]) ∧
      Instr.load 0x1F#8 0x8000#16 ≠ .igl) ∧
    decode OpcodeMap.default [0x0F#8, 0x01#8] = .ok (.igl, [0x01#8]) := ⟨⟨rfl, by decide⟩, rfl⟩

theorem witness_opcodeByteRoundTrip : swapped.wf ∧ Opcode.dec ≠ .igl := by decide

theorem witness_opcodeDecodeTotal : OpcodeMap.default.wf ∧ Opcode.load ≠ .igl ∧ 0x0F#8 ∉ OpcodeMap.default.bytes ∧
    0x0E#8 ∈ OpcodeMap.default.bytes := by decide

theorem witness_defaultOpcodeTable : 0x0F#8 ≤ 0x0F#8 ∧ 0x0F#8 ≤ 0xFF#8 := by decide

theorem witness_instructionLengths :
    decode OpcodeMap.default [0x0E#8, 0x00#8, 0x07#8] = .ok (.dec 0x00#8, [0x07#8]) := rfl

/-! ### Witnesses: the step -/

/-- A state with the given status byte. -/
def withStatus (b : Byte) (s : State) : State := { s with status := b }

theorem witness_stepRunsDecodedInstruction :
    (start [0x0D#8, 0x1F#8] []).sticky = false ∧ (start [0x0D#8, 0x1F#8] []).pc.toNat < (start [0x0D#8, 0x1F#8] []).prog.len ∧
    decode (start [0x0D#8, 0x1F#8] []).build.opcodes (start [0x0D#8, 0x1F#8] []).fetchBytes = .ok (.inc 0x1F#8, []) :=
  ⟨by decide, by decide, rfl⟩

/-- One state for each case of the pseudocode, in its order. -/
theorem witness_stepIsThePseudocode :
    (withStatus 0x01#8 State.reset).sticky = true ∧
    State.reset.prog.len ≤ State.reset.pc.toNat ∧
    opcodeAtPc (start [0x01#8] []) = .hlt ∧
    opcodeAtPc (start [0x0F#8] []) = .igl ∧
    (start [0x02#8, 0x00#8, 0x01#8] []).prog.len < 0 + opcodeLength (opcodeAtPc (start [0x02#8, 0x00#8, 0x01#8] [])) ∧
    (instrAtPc (start [0x0D#8, 0x20#8] [])).regFields.any (fun b => 31 < b.toNat) = true ∧
    (instrAtPc (start [0x0D#8, 0x1F#8] [])).regFields.any (fun b => 31 < b.toNat) = false := by decide

theorem witness_stickyStopChangesNothing :
    (withStatus 0x01#8 State.reset).code = 1#4 ∧ (withStatus 0x03#8 State.reset).code = 3#4 ∧
    (4 ≤ (withStatus 0x04#8 State.reset).code.toNat ∧ (withStatus 0x0C#8 State.reset).code.toNat ≤ 12) ∧
    State.reset.code = 0#4 ∧ (withStatus 0x02#8 State.reset).code = 2#4 := by decide

theorem witness_endOfProgramStop :
    ((withStatus 0x02#8 State.reset).sticky = false ∧ State.reset.prog.len ≤ State.reset.pc.toNat) ∧
    ((withStatus 0x02#8 (start [0x0D#8, 0x00#8] [])).code = 2#4 ∧
      0 + opcodeLength (opcodeAtPc (start [0x0D#8, 0x00#8] [])) ≤ (start [0x0D#8, 0x00#8] []).prog.len) := by decide

/-- One byte short and exactly long enough. -/
theorem witness_truncatedFault :
    ((start [0x00#8, 0x00#8, 0x01#8] []).sticky = false ∧ 0 < (start [0x00#8, 0x00#8, 0x01#8] []).prog.len ∧
      stepCheck (start [0x00#8, 0x00#8, 0x01#8] []) (fun t => t.code = 4#4) = true) ∧
    stepCheck (start [0x00#8, 0x00#8, 0x01#8, 0x00#8] []) (fun t => t.code = 0#4) = true ∧
    stepCheck (start [0x01#8] []) (fun t => t.code = 1#4) = true := by decide

theorem witness_regIndexFault :
    (∃ b ∈ (Instr.jeq 0x20#8).regFields, 31 < b.toNat) ∧
    (State.reset.code ≠ 5#4 ∧ (∀ b ∈ (Instr.eq 0x1F#8 0x00#8 0xFF#8).regFields, b.toNat ≤ 31) ∧
      execCheck (.eq 0x1F#8 0x00#8 0xFF#8) State.reset (fun t => t.code ≠ 5#4) = true) := by decide

/-- A next state for each kind of stop, and one that goes on. -/
theorem witness_stepStopsExactlyWhen :
    stepCheck State.reset (fun t => t.code = 2#4) = true ∧ stepCheck (start [0x01#8] []) (fun t => t.code = 1#4) = true ∧
    stepCheck (start [0xFF#8] []) (fun t => t.code = 3#4) = true ∧ stepCheck (start [0x00#8] []) (fun t => t.code = 4#4) = true ∧
    stepCheck (start [0x0D#8, 0x00#8] []) (fun t => t.code = 0#4) = true ∧ State.reset.sticky = false := by decide

/-- The least and the greatest fault code. -/
theorem witness_faultsArePrecise :
    stepCheck (start [0x00#8] []) (fun t => t.code = 4#4) = true ∧
    (heapOfTen.wf ∧ stepCheck (start [0x0C#8, 0x00#8] [(0, 11#32)] false heapOfTen) (fun t => t.code = 12#4) = true) := by
  decide

/-- Each fault of the table raised, on a RUNNING state and legal fields. -/
theorem witness_faultTable :
    State.reset.status = 0x00#8 ∧ (Instr.div 0x00#8 0x01#8 0x02#8).regsLegal = true ∧
    execCheck (.div 0x00#8 0x01#8 0x02#8) (start [] []) (fun t => t.code = 6#4) = true ∧
    execCheck (.div 0x00#8 0x01#8 0x02#8) (start [] [(0, 0x80000000#32), (1, 0xFFFFFFFF#32)]) (fun t => t.code = 7#4) = true ∧
    execCheck (.inc 0x00#8) (start [] [(0, 0x7FFFFFFF#32)] false faulting) (fun t => t.code = 8#4) = true ∧
    execCheck (.jmpf 0x00#8) (start [] [(0, 0xFFFFFFFE#32)]) (fun t => t.code = 9#4) = true ∧
    execCheck (.jmpb 0x00#8) (start [] [(0, 3#32)]) (fun t => t.code = 10#4) = true ∧
    execCheck (.aloc 0x00#8) (start [] [(0, 0xFFFFFFFF#32)]) (fun t => t.code = 11#4) = true ∧
    execCheck (.aloc 0x00#8) (start [] [(0, 11#32)] false heapOfTen) (fun t => t.code = 12#4) = true ∧
    execCheck (.aloc 0x1F#8) (start [] []) (fun t => t.code = 0#4) = true := by decide

theorem witness_nonFaultStopsPc :
    (start [0x01#8] []).wf ∧ stepCheck (start [0x01#8] []) (fun t => t.code = 1#4) = true ∧
    stepCheck (start [0xFF#8] []) (fun t => t.code = 3#4) = true ∧ stepCheck State.reset (fun t => t.code = 2#4) = true := by
  decide

/-- The hypotheses of `FetchesAs` and of its two clauses, for INC: one byte short, and whole. -/
theorem witness_fetchesAs :
    ((start [0x0D#8] []).sticky = false ∧ 0 < (start [0x0D#8] []).prog.len ∧ opcodeAtPc (start [0x0D#8] []) = .inc ∧
      (start [0x0D#8] []).prog.len < 0 + 2) ∧
    (opcodeAtPc (start [0x0D#8, 0x00#8] []) = .inc ∧ 0 + 2 ≤ (start [0x0D#8, 0x00#8] []).prog.len) := by decide

/-! ### Witnesses: the instructions -/

/-- The register fields of LOAD, JMP, JMPF, JMPB, JEQ, JNEQ, ALOC, INC and DEC: legal up to 31, illegal from 32. -/
theorem witness_registerField : (0x1F#8).toNat = (31 : Fin 32).val ∧ (0x00#8).toNat = (0 : Fin 32).val ∧
    31 < (0x20#8).toNat ∧ 31 < (0xFF#8).toNat := by decide

theorem witness_loadRule : (0x1F#8).toNat = (31 : Fin 32).val ∧ 31 < (0x20#8).toNat := by decide

theorem witness_hltRule : ((start [0x01#8] []).sticky = false ∧ 0 < (start [0x01#8] []).prog.len ∧
    opcodeAtPc (start [0x01#8] []) = .hlt) ∧ execCheck .hlt State.reset (fun t => t.code = 1#4) = true := by decide

theorem witness_iglRule : State.reset.sticky = false ∧ 0 < (start [0x0F#8] []).prog.len ∧
    progByte (start [0x0F#8] []) 0 ∉ (start [0x0F#8] []).build.opcodes.bytes ∧
    execCheck .igl State.reset (fun t => t.code = 3#4) = true := by decide

/-- Both orders; a sum at s32Max and one past it, under wrap and under fault; a field of 32. -/
theorem witness_addSubMulRule :
    ((start [] []).build.arithOrder = .srcSrcDst ∧ (start [] [] false dstFirst).build.arithOrder = .dstSrcSrc) ∧
    ((start [] [(0, 0x7FFFFFFF#32), (1, 1#32)]).build.arithOverflow = .wrap) ∧
    ((start [] [(0, 0x7FFFFFFE#32), (1, 1#32)] false faulting).regs[(0 : Fin 32)].toInt +
      (start [] [(0, 0x7FFFFFFE#32), (1, 1#32)] false faulting).regs[(1 : Fin 32)].toInt = s32Max) ∧
    ((start [] [(0, 0x7FFFFFFF#32), (1, 1#32)] false faulting).build.arithOverflow = .fault ∧
      s32Max < (start [] [(0, 0x7FFFFFFF#32), (1, 1#32)] false faulting).regs[(0 : Fin 32)].toInt +
        (start [] [(0, 0x7FFFFFFF#32), (1, 1#32)] false faulting).regs[(1 : Fin 32)].toInt) ∧
    ((0x00#8).toNat = (0 : Fin 32).val ∧ (0x01#8).toNat = (1 : Fin 32).val ∧ (0x1F#8).toNat = (31 : Fin 32).val) ∧
    31 < (0x20#8).toNat := by decide

/-- INC at s32Max − 1, and at s32Max under wrap and under fault. -/
theorem witness_overflowLaw :
    ((Instr.inc 0x00#8).regsLegal = true ∧ (0x00#8).toNat = (0 : Fin 32).val) ∧
    exactResult (start [] [(0, 0x7FFFFFFE#32)]) (.inc 0x00#8) = some (0x00#8, s32Max) ∧
    (exactResult (start [] [(0, 0x7FFFFFFF#32)]) (.inc 0x00#8) = some (0x00#8, 2147483648) ∧
      ¬(s32Min ≤ (2147483648 : Int) ∧ (2147483648 : Int) ≤ s32Max)) ∧
    (start [] [] false faulting).build.arithOverflow = .fault ∧ (start [] []).build.arithOverflow = .wrap := by decide

theorem witness_divRule :
    ((start [] []).regs[(1 : Fin 32)].toInt = 0) ∧
    ((start [] [(0, 0x80000000#32), (1, 0xFFFFFFFF#32)]).regs[(0 : Fin 32)].toInt = s32Min ∧
      (start [] [(0, 0x80000000#32), (1, 0xFFFFFFFF#32)]).regs[(1 : Fin 32)].toInt = -1) ∧
    ((start [] [(0, 0x80000001#32), (1, 0xFFFFFFFF#32)]).regs[(1 : Fin 32)].toInt ≠ 0 ∧
      ¬((start [] [(0, 0x80000001#32), (1, 0xFFFFFFFF#32)]).regs[(0 : Fin 32)].toInt = s32Min ∧
        (start [] [(0, 0x80000001#32), (1, 0xFFFFFFFF#32)]).regs[(1 : Fin 32)].toInt = -1)) ∧
    ((start [] []).build.arithOrder = .srcSrcDst ∧ (start [] [] false dstFirst).build.arithOrder = .dstSrcSrc) ∧
    ((0x00#8).toNat = (0 : Fin 32).val ∧ (0x01#8).toNat = (1 : Fin 32).val ∧ (0x1F#8).toNat = (31 : Fin 32).val) ∧
    31 < (0x20#8).toNat := by decide

/-- The table's rows at its ends, and its two faulting rows. -/
theorem witness_divLaws :
    ((start [] [(0, 0x7FFFFFFF#32), (1, 0xFFFFFFFF#32)]).regs[(0 : Fin 32)].toInt = 2147483647 ∧
      (start [] [(0, 0x7FFFFFFF#32), (1, 0xFFFFFFFF#32)]).regs[(1 : Fin 32)].toInt = -1) ∧
    ((start [] [(0, 7#32), (1, 2#32)]).regs[(0 : Fin 32)].toInt = 7 ∧
      (start [] [(0, 7#32), (1, 2#32)]).regs[(1 : Fin 32)].toInt = 2) ∧
    ((start [] [(0, 0x80000000#32), (1, 0xFFFFFFFF#32)]).regs[(0 : Fin 32)].toInt = s32Min ∧
      (start [] [(0, 0x80000000#32), (1, 0xFFFFFFFF#32)]).regs[(1 : Fin 32)].toInt = -1) ∧
    (start [] []).regs[(1 : Fin 32)].toInt = 0 ∧ (start [] []).build.arithOrder = .srcSrcDst := by decide

theorem witness_incDecRule :
    ((start [] [(0, 0x7FFFFFFF#32)]).build.arithOverflow = .wrap) ∧
    ((start [] [(0, 0x7FFFFFFF#32)] false faulting).build.arithOverflow = .fault ∧
      (start [] [(0, 0x7FFFFFFF#32)] false faulting).regs[(0 : Fin 32)].toInt = s32Max) ∧
    (start [] [(0, 0x7FFFFFFE#32)] false faulting).regs[(0 : Fin 32)].toInt ≠ s32Max ∧
    (start [] [(0, 0x80000000#32)] false faulting).regs[(0 : Fin 32)].toInt = s32Min ∧
    (start [] [(0, 0x80000001#32)] false faulting).regs[(0 : Fin 32)].toInt ≠ s32Min ∧
    (0x00#8).toNat = (0 : Fin 32).val ∧ 31 < (0x20#8).toNat := by decide

theorem witness_jmpRule : (0x1F#8).toNat = (31 : Fin 32).val ∧ 31 < (0x20#8).toNat := by decide

/-- The exact sum at 2^32 − 1 and at 2^32. -/
theorem witness_jmpfRule :
    (start [] [(0, 0xFFFFFFFD#32)]).pc.toNat + 2 + (start [] [(0, 0xFFFFFFFD#32)]).regs[(0 : Fin 32)].toNat ≤ 4294967295 ∧
    4294967295 < (start [] [(0, 0xFFFFFFFE#32)]).pc.toNat + 2 + (start [] [(0, 0xFFFFFFFE#32)]).regs[(0 : Fin 32)].toNat := by
  decide

/-- The offset at a + 2 and at a + 3. -/
theorem witness_jmpbRule :
    (start [] [(0, 2#32)]).regs[(0 : Fin 32)].toNat ≤ (start [] [(0, 2#32)]).pc.toNat + 2 ∧
    (start [] [(0, 3#32)]).pc.toNat + 2 < (start [] [(0, 3#32)]).regs[(0 : Fin 32)].toNat := by decide

theorem witness_eqRule : ((0x1F#8).toNat = (31 : Fin 32).val ∧ (0x00#8).toNat = (0 : Fin 32).val) ∧
    31 < (0x20#8).toNat := by decide

theorem witness_conditionalJumpRule : (start [] [] true).eq = true ∧ (start [] []).eq = false ∧
    (0x1F#8).toNat = (31 : Fin 32).val ∧ 31 < (0x20#8).toNat := by decide

/-- A count of −1; the count that fills the heap; one more; and the addresses at the ends of the grown heap. -/
theorem witness_alocRule :
    ((0x00#8).toNat = (0 : Fin 32).val ∧ 31 < (0x20#8).toNat) ∧
    (start [] [(0, 0xFFFFFFFF#32)]).regs[(0 : Fin 32)].toInt < 0 ∧
    ((grown 7 (start [] [(0, 4#32)] false heapOfTen)).regs[(0 : Fin 32)].toInt = (4 : Nat) ∧
      (grown 7 (start [] [(0, 4#32)] false heapOfTen)).build.heapMax <
        (grown 7 (start [] [(0, 4#32)] false heapOfTen)).heap.len + 4) ∧
    ((grown 7 (start [] [(0, 3#32)] false heapOfTen)).regs[(0 : Fin 32)].toInt = (3 : Nat) ∧
      (grown 7 (start [] [(0, 3#32)] false heapOfTen)).heap.len + 3 ≤
        (grown 7 (start [] [(0, 3#32)] false heapOfTen)).build.heapMax) ∧
    (6 < (grown 7 (start [] [])).heap.len ∧ (grown 7 (start [] [])).heap.len ≤ 7 ∧
      9 < (grown 7 (start [] [])).heap.len + 3 ∧ (grown 7 (start [] [])).heap.len + 3 ≤ 10) := by decide

/-- A written register; and two states that agree on the registers read and differ elsewhere. -/
theorem witness_registerReadsAndWrites :
    execCheck (.inc 0x00#8) State.reset (fun t => t.getReg 0 ≠ State.reset.getReg 0) = true ∧
    (∀ b ∈ readFields (start [] [(5, 1#32)]).build.arithOrder (.add 0x00#8 0x01#8 0x05#8), ∀ j : Fin 32, b.toNat = j.val →
      (start [] [(5, 1#32)]).regs[j] = (start [] [(5, 2#32)]).regs[j]) ∧
    execCheck (.add 0x00#8 0x01#8 0x05#8) (start [] [(5, 1#32)]) (fun t => t.status = 0x00#8) = true ∧
    writeField (start [] []).build.arithOrder (.add 0x00#8 0x01#8 0x05#8) = some 0x05#8 := by decide

/-- A completion whose last byte is the last a pc can name, and a fault. -/
theorem witness_pcAfterInstruction :
    (((start [] []).setPc 0xFFFFFFFD#32).pc.toNat + opcodeLength (Instr.inc 0x00#8).opcode ≤ 4294967295 ∧
      execCheck (.inc 0x00#8) ((start [] []).setPc 0xFFFFFFFD#32) (fun t => t.code.toNat ≤ 3) = true) ∧
    execCheck (.jmpb 0x00#8) (start [] [(0, 3#32)]) (fun t => 4 ≤ t.code.toNat) = true := by decide

theorem witness_eqFlagRule :
    execCheck (.eq 0x00#8 0x01#8 0x00#8) State.reset (fun t => t.eq ≠ State.reset.eq) = true ∧
    ((Instr.inc 0x00#8).opcode ≠ .jeq ∧ (Instr.inc 0x00#8).opcode ≠ .jneq ∧
      execCheck (.inc 0x00#8) State.reset (fun _ => true) = true ∧
      execCheck (.inc 0x00#8) { State.reset with eq := true } (fun _ => true) = true) ∧
    ((Instr.eq 0x00#8 0x01#8 0x00#8).opcode = .eq ∧ State.reset.status = 0x00#8 ∧
      execCheck (.eq 0x00#8 0x01#8 0x00#8) State.reset (fun t => t.status = 0x00#8) = true ∧
      execCheck (.eq 0x00#8 0x01#8 0x00#8) { State.reset with eq := true } (fun _ => true) = true) := by decide

theorem witness_remainderRule :
    execCheck (.div 0x00#8 0x01#8 0x02#8) (start [] [(0, 7#32), (1, 2#32)]) (fun t => t.rem ≠ 0#32) = true ∧
    execCheck (.inc 0x00#8) { State.reset with rem := 9#32 } (fun _ => true) = true ∧
    ((Instr.div 0x00#8 0x01#8 0x02#8).opcode = .div ∧ (start [] [(0, 7#32), (1, 2#32)]).status = 0x00#8 ∧
      execCheck (.div 0x00#8 0x01#8 0x02#8) (start [] [(0, 7#32), (1, 2#32)]) (fun t => t.status = 0x00#8) = true ∧
      execCheck (.div 0x00#8 0x01#8 0x02#8) { start [] [(0, 7#32), (1, 2#32)] with rem := 9#32 } (fun _ => true) = true) := by
  decide

theorem witness_statusRegisterRule :
    ((serve 1 .step State.reset).map fun p => p.1.status) = some 0x02#8 ∧ State.reset.status = 0x00#8 := by decide

/-- Clauses of the premise: an instruction that is not ALOC, and an ALOC that fits both heaps. -/
theorem witness_heapUnobservable :
    State.reset.code ≠ 12#4 ∧ (Instr.inc 0x00#8).opcode ≠ .aloc ∧
    execCheck (.aloc 0x00#8) (start [] [(0, 3#32)] false heapOfTen) (fun t => t.code ≠ 12#4) = true ∧
    execCheck (.aloc 0x00#8) (grown 7 (start [] [(0, 3#32)] false heapOfTen)) (fun t => t.code ≠ 12#4) = true := by decide

theorem witness_memoryFrame :
    execCheck (.aloc 0x00#8) (grown 7 (start [] [(0, 3#32)])) (fun t => t.heap.len = 10) = true ∧
    6 < (grown 7 (start [] [])).heap.len ∧ execCheck (.inc 0x00#8) (grown 7 (start [] [])) (fun t => t.heap.len = 7) = true ∧
    (Instr.inc 0x00#8).opcode ≠ .aloc := by decide

/-! ### Witnesses: invariants and host interface -/

theorem witness_resetIsLegal : State.reset.build.wf ∧ heapOfTen.wf ∧ ({ Config.default with progMax := 1, heapMax := 0 } : Config).wf := by
  decide

theorem witness_stepKeepsLegal : (grown 7 (start [0x0C#8, 0x00#8] [(0, 3#32)] false heapOfTen)).wf ∧
    stepCheck (grown 7 (start [0x0C#8, 0x00#8] [(0, 3#32)] false heapOfTen)) (fun t => t.heap.len = 10) = true := by decide

/-- APPEND of the last byte that fits, and RUN. -/
theorem witness_commandsKeepLegal :
    (start [] [] false { Config.default with progMax := 1 }).wf ∧
    ((serve 0 (.append 0xFF#8) (start [] [] false { Config.default with progMax := 1 })).map Prod.snd = some .ok) ∧
    ((serve 3 .run (start [0x0D#8, 0x00#8] [])).map Prod.snd = some (.stop 2#4)) := by decide

theorem witness_programStoreWrittenOnlyByHost :
    stepCheck (start [0x0D#8, 0x00#8] []) (fun _ => true) = true ∧
    ((serve 0 (.append 0xFF#8) (start [0x0D#8] [])).map Prod.snd = some .ok ∧ 0 < (start [0x0D#8] []).prog.len) ∧
    ((serve 1 .step (start [0x0D#8, 0x00#8] [])).map Prod.snd = some .continues) := by decide

theorem witness_heapOnlyGrows :
    ((serve 1 .step (grown 7 (start [0x0C#8, 0x00#8] [(0, 3#32)]))).map Prod.snd = some .continues) ∧
    ((grown 7 (start [] [])).wf ∧ 6 < (grown 7 (start [] [])).heap.len) := by decide

theorem witness_sequentialAdvanceNeverWraps :
    (start [0x0D#8, 0x00#8] []).wf ∧ (start [0x0D#8, 0x00#8] []).sticky = false ∧
    stepCheck (start [0x0D#8, 0x00#8] []) (fun t => t.code = 0#4) = true ∧
    opcodeAtPc (start [0x0D#8, 0x00#8] []) ∉ [Opcode.jmp, .jmpf, .jmpb, .jeq, .jneq] := by decide

/-- One byte below PROG_MAX, at PROG_MAX (HC4), and after END_OF_PROGRAM at P.len. -/
theorem witness_appendCommandRule :
    ((start [0x01#8] []).prog.wf ∧ (start [] [] false { Config.default with progMax := 1 }).prog.len < 1) ∧
    1 ≤ (start [0x01#8] [] false { Config.default with progMax := 1 }).prog.len ∧
    ((withStatus 0x02#8 State.reset).code = 2#4 ∧ State.reset.pc.toNat = State.reset.prog.len) := by decide

/-- RUN returns at the third step with fuel 3 and not with fuel 2; the two states it continues through. -/
theorem witness_runCommandRule :
    ((serve 3 .run (start [0x0D#8, 0x00#8, 0x0D#8, 0x00#8] [])).map Prod.snd = some (.stop 2#4)) ∧
    (serve 2 .run (start [0x0D#8, 0x00#8, 0x0D#8, 0x00#8] []) = none) := by decide

/-- CF2. -/
theorem witness_selfJumpRunsForever :
    (start [0x06#8, 0x01#8] []).sticky = false ∧ 0 + 2 ≤ (start [0x06#8, 0x01#8] []).prog.len ∧
    opcodeAtPc (start [0x06#8, 0x01#8] []) = .jmp ∧ (progByte (start [0x06#8, 0x01#8] []) 1).toNat = (1 : Fin 32).val ∧
    (start [0x06#8, 0x01#8] []).regs[(1 : Fin 32)] = (start [0x06#8, 0x01#8] []).pc := by decide

theorem witness_registerCommandsRule :
    ((serve 0 (.regRead 31) (start [] [(31, 9#32)])).map Prod.snd = some (.word 9#32)) ∧ 31 < 32 := by decide

theorem witness_remAndPcCommandsRule :
    ((serve 1 .step (start [0x0D#8, 0x00#8] [])).map fun p => p.1.pc) = some 2#32 ∧ (start [0x0D#8, 0x00#8] []).pc = 0#32 := by decide

/-- The last byte that exists and the first that does not (V6, HC3, HC5). -/
theorem witness_memoryReadCommandsRule :
    ((grown 7 (start [] [])).heap.read 6 = some 0x00#8 ∧ (6#32).toNat < (grown 7 (start [] [])).heap.len) ∧
    ((start [0x0D#8, 0x05#8] []).prog.read 1 = some 0x05#8 ∧ (1#32).toNat < (start [0x0D#8, 0x05#8] []).prog.len) ∧
    (grown 7 (start [] [])).heap.len ≤ (7#32).toNat ∧ (start [0x0D#8, 0x05#8] []).prog.len ≤ (2#32).toNat := by decide

/-- HC1 and HC3. -/
theorem witness_cmdErrorChangesNothing :
    ((serve 0 (.regRead 32) State.reset).map Prod.snd = some .cmdError) ∧
    ((serve 0 (.heapRead 0#32) State.reset).map Prod.snd = some .cmdError) := by decide

/-- HC7: commands without RESET in a sticky stop. -/
theorem witness_onlyResetLeavesStickyStop :
    (withStatus 0x01#8 State.reset).sticky = true ∧ (withStatus 0x0C#8 State.reset).sticky = true ∧
    Command.reset ∉ [Command.regWrite 0 1#32, .append 0x01#8, .step] ∧
    ((serveAll 1 [.regWrite 0 1#32, .append 0x01#8, .step] (withStatus 0x06#8 State.reset)).map Prod.snd =
      some [.ok, .ok, .stop 6#4]) := by decide

/-! ### Witnesses: the assembler and the table's words -/

theorem witness_assembledLineBytes : opcodeByte OpcodeMap.default .dec = some 0x0E#8 := by decide

/-- V12: 70000 is more than 16 bits. -/
theorem witness_assembledLineRoundTrip : OpcodeMap.default.wf ∧
    Assembler.parseLine "load $3 #70000\n".toList = some (⟨.load, 3, 70000#32⟩, []) ∧
    Assembler.parseLine "dec $31 #-2147483648\n".toList = some (⟨.dec, 31, 0x80000000#32⟩, []) := by decide

theorem witness_assembledLineAsExecuted : OpcodeMap.default.wf ∧ swapped.wf := by decide

theorem witness_assemblerTypedErrors :
    (∀ o : Opcode, Assembler.Token.register 0 ≠ .op o) ∧
    (Assembler.Token.op .igl = .op .igl) ∧
    (Assembler.Token.op .dec = .op .dec ∧ Opcode.dec ≠ .igl ∧
      some (Assembler.Token.op .hlt) ∈ [none, none, some (Assembler.Token.op .hlt)]) ∧
    (¬∃ p : Opcode, some (Assembler.Token.op p) ∈ [some (Assembler.Token.integer 0#32), none, none]) := by
  refine ⟨fun o h => Assembler.Token.noConfusion h, rfl, by decide, ?_⟩
  rintro ⟨p, h⟩
  simp at h

/-- Free to step and held by a sticky stop; the last byte placed and the first after it. -/
theorem witness_fetchWordRunsTableInstruction : State.reset.build.opcodes = OpcodeMap.default ∧ State.reset.prog.wf ∧
    (State.reset.sticky = false ∧ (withStatus 0x0C#8 State.reset).sticky = true) ∧
    (3 < 4 ∧ State.reset.pc.toNat + 4 ≤ 4) ∧
    decodeTableWord 32 0xF4010000 = some (.load 0x00#8 0x01F4#16) ∧ decodeTableWord 8 0x01 = some .hlt := by decide

end Sys2Proof.Tests
end

/-! SUPPORT. An instruction as a decision and its execution: what it does is chosen from what it reads, and then
performed (10_state.md rule R22: reads come before writes). -/

namespace Sys2Proof.Machine

/-! ### Actions -/

/-- What an instruction does once its checks and its reads are made. -/
inductive Action where
  /-- Raise a fault (R243). -/
  | fault (c : StopCode)
  /-- The stop of HLT and IGL (R244). -/
  | stop (c : StopCode)
  /-- Write v to x[d] and advance by n. -/
  | write (d : Fin 32) (v : Word) (n : Nat)
  /-- Write the quotient to x[d] and the remainder to rem (R175). -/
  | divide (d : Fin 32) (q r : Word)
  /-- Go to v. -/
  | jump (v : Word)
  /-- The fall-through of a conditional jump that is not taken (R205, R206). -/
  | fallThrough
  /-- Write the flag (R204). -/
  | setFlag (f : Bool)
  /-- Grow the heap by k bytes (R231). -/
  | grow (k : Nat)

/-- The state after an action. -/
def Action.perform : Action → State → State
  | .fault c, s => s.raise c
  | .stop c, s => s.stopAfterOpcode c
  | .write d v n, s => (s.setReg d v).advance n
  | .divide d q r, s => ((s.setReg d q).setRem r).advance 4
  | .jump v, s => s.setPc v
  | .fallThrough, s => s.advance 2
  | .setFlag f, s => (s.setEq f).advance 4
  | .grow k, s => (s.setHeap (s.heap.grow k)).advance 2

/-- The check of one register field (R126). -/
def Action.checkReg (b : Byte) (k : Fin 32 → Action) : Action :=
  match regIndex b with
  | some i => k i
  | none => .fault .regIndex

/-- The commit of an exact result under the overflow law (R171). -/
def Action.commit (mode : ArithOverflow) (d : Fin 32) (e : Int) (n : Nat) : Action :=
  match arithResult mode e with
  | some v => .write d v n
  | none => .fault .arithOverflow

/-- The choice of ADD, SUB and MUL (R170). -/
def Action.binary (op : Int → Int → Int) (f1 f2 f3 : Byte) (s : State) : Action :=
  checkReg f1 fun i1 => checkReg f2 fun i2 => checkReg f3 fun i3 =>
    commit s.build.arithOverflow (dest s.build.arithOrder i1 i2 i3)
      (op (s.getReg (srcLeft s.build.arithOrder i1 i2 i3)).toInt (s.getReg (srcRight s.build.arithOrder i1 i2 i3)).toInt)
      4

/-- The choice of INC and DEC (R176, R177). -/
def Action.stepBy (delta : Int) (r : Byte) (s : State) : Action :=
  checkReg r fun i => commit s.build.arithOverflow i ((s.getReg i).toInt + delta) 2

/-- The choice of DIV between its two faults and the division, on the values read (R175). -/
def Action.quotient (d : Fin 32) (n1 n2 : Int) : Action :=
  if n2 = 0 then .fault .divByZero
  else if n1 = s32Min ∧ n2 = -1 then .fault .divOverflow
  else .divide d (wrap32 (Sys2Proof.Machine.divide n1 n2).1) (wrap32 (Sys2Proof.Machine.divide n1 n2).2)

/-- The choice of the absolute jumps (R201, R205, R206). -/
def Action.jumpIf (taken : Bool) (r : Byte) (s : State) : Action :=
  checkReg r fun i => if taken then .jump (s.getReg i) else .fallThrough

/-- The choice of ALOC between its two faults and the growth (R231). -/
def Action.allocate (k : Int) (s : State) : Action :=
  if k < 0 then .fault .heapNegative
  else if s.heap.len + k.toNat > s.build.heapMax then .fault .heapOverflow
  else .grow k.toNat

/-- The action an instruction chooses in a state. -/
def action : Instr → State → Action
  | .load r imm, _ => .checkReg r fun i => .write i (immValue imm) 4
  | .hlt, _ => .stop .halted
  | .add f1 f2 f3, s => .binary (fun a b => a + b) f1 f2 f3 s
  | .sub f1 f2 f3, s => .binary (fun a b => a - b) f1 f2 f3 s
  | .mul f1 f2 f3, s => .binary (fun a b => a * b) f1 f2 f3 s
  | .div f1 f2 f3, s => .checkReg f1 fun i1 => .checkReg f2 fun i2 => .checkReg f3 fun i3 =>
      .quotient (dest s.build.arithOrder i1 i2 i3) (s.getReg (srcLeft s.build.arithOrder i1 i2 i3)).toInt
        (s.getReg (srcRight s.build.arithOrder i1 i2 i3)).toInt
  | .jmp r, s => .jumpIf true r s
  | .jmpf r, s => .checkReg r fun i =>
      if jumpBase s + jumpOperand s i > 4294967295 then .fault .pcOverflow
      else .jump (BitVec.ofNat 32 (jumpBase s + jumpOperand s i))
  | .jmpb r, s => .checkReg r fun i =>
      if jumpOperand s i > jumpBase s then .fault .jumpUnderflow
      else .jump (BitVec.ofNat 32 (jumpBase s - jumpOperand s i))
  | .eq s1 s2 _, s => .checkReg s1 fun i1 => .checkReg s2 fun i2 => .setFlag (equalFlag (s.getReg i1) (s.getReg i2))
  | .jeq r, s => .jumpIf s.eq r s
  | .jneq r, s => .jumpIf (!s.eq) r s
  | .aloc r, s => .checkReg r fun i => .allocate (s.getReg i).toInt s
  | .inc r, s => .stepBy 1 r s
  | .dec r, s => .stepBy (-1) r s
  | .igl, _ => .stop .illegalOpcode

/-! ### Executing is performing the chosen action -/

theorem Action.checkReg_of_index {b : Byte} {i : Fin 32} (h : b.toNat = i.val) (k : Fin 32 → Action) :
    checkReg b k = k i := by simp [checkReg, regIndex_of_index h]

theorem Action.checkReg_of_illegal {b : Byte} (h : 31 < b.toNat) (k : Fin 32 → Action) :
    checkReg b k = .fault .regIndex := by simp [checkReg, regIndex_of_illegal h]

/-- A register check performs the choice of what comes after it. -/
theorem withReg_eq_perform {b : Byte} {s : State} {k : Fin 32 → Result} {k' : Fin 32 → Action}
    (h : ∀ i, k i = .next ((k' i).perform s)) : withReg b s k = .next ((Action.checkReg b k').perform s) := by
  unfold withReg Action.checkReg
  cases regIndex b with
  | some i => exact h i
  | none => rfl

theorem withReg3_eq_perform {b1 b2 b3 : Byte} {s : State} {k : Fin 32 → Fin 32 → Fin 32 → Result}
    {k' : Fin 32 → Fin 32 → Fin 32 → Action} (h : ∀ i1 i2 i3, k i1 i2 i3 = .next ((k' i1 i2 i3).perform s)) :
    withReg3 b1 b2 b3 s k = .next ((Action.checkReg b1 fun i1 => Action.checkReg b2 fun i2 =>
      Action.checkReg b3 fun i3 => k' i1 i2 i3).perform s) :=
  withReg_eq_perform fun i1 => withReg_eq_perform fun i2 => withReg_eq_perform fun i3 => h i1 i2 i3

theorem writeResult_eq_perform (d : Fin 32) (e : Int) (n : Nat) (s : State) :
    writeResult d e n s = .next ((Action.commit s.build.arithOverflow d e n).perform s) := by
  unfold writeResult Action.commit
  cases arithResult s.build.arithOverflow e <;> rfl

theorem aluBinary_eq_perform (op : Int → Int → Int) (f1 f2 f3 : Byte) (s : State) :
    aluBinary op f1 f2 f3 s = .next ((Action.binary op f1 f2 f3 s).perform s) :=
  withReg3_eq_perform fun _ _ _ => writeResult_eq_perform _ _ _ s

theorem aluStep_eq_perform (delta : Int) (r : Byte) (s : State) :
    aluStep delta r s = .next ((Action.stepBy delta r s).perform s) :=
  withReg_eq_perform fun _ => writeResult_eq_perform _ _ _ s

theorem divideInto_eq_perform (s1 s2 d : Fin 32) (s : State) :
    divideInto s1 s2 d s = .next ((Action.quotient d (s.getReg s1).toInt (s.getReg s2).toInt).perform s) := by
  simp only [divideInto, Action.quotient]
  split
  · rfl
  · split <;> rfl

theorem jumpIf_eq_perform (taken : Bool) (r : Byte) (s : State) :
    jumpIf taken r s = .next ((Action.jumpIf taken r s).perform s) :=
  withReg_eq_perform fun _ => by cases taken <;> rfl

theorem allocate_eq_perform (k : Int) (s : State) : allocate k s = .next ((Action.allocate k s).perform s) := by
  unfold allocate Action.allocate
  split
  · rfl
  · split <;> rfl

/-- Executing an instruction is performing the action it chooses. -/
theorem exec_eq_perform (i : Instr) (s : State) : exec i s = .next ((action i s).perform s) := by
  cases i with
  | load r imm => exact withReg_eq_perform fun _ => rfl
  | hlt => rfl
  | igl => rfl
  | add f1 f2 f3 => exact aluBinary_eq_perform _ f1 f2 f3 s
  | sub f1 f2 f3 => exact aluBinary_eq_perform _ f1 f2 f3 s
  | mul f1 f2 f3 => exact aluBinary_eq_perform _ f1 f2 f3 s
  | div f1 f2 f3 => exact withReg3_eq_perform fun _ _ _ => divideInto_eq_perform _ _ _ s
  | jmp r => exact jumpIf_eq_perform true r s
  | jmpf r => exact withReg_eq_perform fun i => by split <;> rfl
  | jmpb r => exact withReg_eq_perform fun i => by split <;> rfl
  | eq s1 s2 pad => exact withReg_eq_perform fun _ => withReg_eq_perform fun _ => rfl
  | jeq r => exact jumpIf_eq_perform s.eq r s
  | jneq r => exact jumpIf_eq_perform (!s.eq) r s
  | aloc r => exact withReg_eq_perform fun _ => allocate_eq_perform _ s
  | inc r => exact aluStep_eq_perform 1 r s
  | dec r => exact aluStep_eq_perform (-1) r s

theorem eq_perform_of_exec {i : Instr} {s t : State} (h : exec i s = .next t) : t = (action i s).perform s := by
  rw [exec_eq_perform] at h
  cases h
  rfl

end Sys2Proof.Machine

/-! SUPPORT. What an instruction's choice of action depends on, and which instruction can choose which action. -/

namespace Sys2Proof.Machine

/-! ### What the choice depends on -/

theorem Action.checkReg_congr {b : Byte} {k k' : Fin 32 → Action} (h : ∀ j : Fin 32, b.toNat = j.val → k j = k' j) :
    checkReg b k = checkReg b k' := by
  rcases index_or_illegal b with ⟨j, hj⟩ | hb
  · rw [checkReg_of_index hj, checkReg_of_index hj, h j hj]
  · rw [checkReg_of_illegal hb, checkReg_of_illegal hb]

/-- The two states hold the same value in every register an instruction with these read fields reads. -/
def AgreeOn (fields : List Byte) (s s' : State) : Prop :=
  ∀ b ∈ fields, ∀ j : Fin 32, b.toNat = j.val → s.getReg j = s'.getReg j

theorem AgreeOn.head {b : Byte} {bs : List Byte} {s s' : State} (h : AgreeOn (b :: bs) s s') {j : Fin 32}
    (hj : b.toNat = j.val) : s.getReg j = s'.getReg j := h b (by simp) j hj

theorem AgreeOn.second {b c : Byte} {bs : List Byte} {s s' : State} (h : AgreeOn (b :: c :: bs) s s') {j : Fin 32}
    (hj : c.toNat = j.val) : s.getReg j = s'.getReg j := h c (by simp) j hj

/-- The sources of an FRRR instruction are the registers its read fields name, in either ARITH_ORDER (R88). -/
theorem AgreeOn.sources {o : ArithOrder} {f1 f2 f3 : Byte} {s s' : State}
    (h : AgreeOn (if o = .srcSrcDst then [f1, f2] else [f2, f3]) s s') {i1 i2 i3 : Fin 32}
    (h1 : f1.toNat = i1.val) (h2 : f2.toNat = i2.val) (h3 : f3.toNat = i3.val) :
    s.getReg (srcLeft o i1 i2 i3) = s'.getReg (srcLeft o i1 i2 i3) ∧
      s.getReg (srcRight o i1 i2 i3) = s'.getReg (srcRight o i1 i2 i3) := by
  cases o with
  | srcSrcDst => exact ⟨AgreeOn.head h h1, AgreeOn.second h h2⟩
  | dstSrcSrc => exact ⟨AgreeOn.head h h2, AgreeOn.second h h3⟩

theorem Action.binary_congr (op : Int → Int → Int) {f1 f2 f3 : Byte} {s s' : State} (hbuild : s.build = s'.build)
    (h : AgreeOn (if s.build.arithOrder = .srcSrcDst then [f1, f2] else [f2, f3]) s s') :
    binary op f1 f2 f3 s = binary op f1 f2 f3 s' := by
  refine checkReg_congr fun i1 h1 => checkReg_congr fun i2 h2 => checkReg_congr fun i3 h3 => ?_
  obtain ⟨hl, hr⟩ := h.sources h1 h2 h3
  rw [hl, hr, hbuild]

theorem Action.stepBy_congr (delta : Int) {r : Byte} {s s' : State} (hbuild : s.build = s'.build)
    (h : AgreeOn [r] s s') : stepBy delta r s = stepBy delta r s' :=
  checkReg_congr fun i hi => by rw [h.head hi, hbuild]

theorem Action.jumpIf_congr {taken taken' : Bool} {r : Byte} {s s' : State} (ht : taken = taken')
    (h : AgreeOn [r] s s') : jumpIf taken r s = jumpIf taken' r s' :=
  checkReg_congr fun i hi => by rw [h.head hi, ht]

theorem jumpBase_congr {s s' : State} (h : s.pc = s'.pc) : jumpBase s = jumpBase s' := by rw [jumpBase, h, jumpBase]

theorem AgreeOn.jumpOperand {r : Byte} {s s' : State} (h : AgreeOn [r] s s') {i : Fin 32} (hi : r.toNat = i.val) :
    jumpOperand s i = jumpOperand s' i := congrArg BitVec.toNat (h.head hi)

/-- The action an instruction chooses depends on nothing but pc, the build, the registers the table of R21 says it
reads, for JEQ and JNEQ the flag, and for ALOC the length of the heap. -/
theorem action_congr {i : Instr} {s s' : State} (hpc : s.pc = s'.pc) (hbuild : s.build = s'.build)
    (heq : i.opcode = .jeq ∨ i.opcode = .jneq → s.eq = s'.eq)
    (hheap : i.opcode = .aloc → s.heap.len = s'.heap.len)
    (hregs : AgreeOn (readFields s.build.arithOrder i) s s') : action i s = action i s' := by
  cases i with
  | load r imm => rfl
  | hlt => rfl
  | igl => rfl
  | add f1 f2 f3 => exact Action.binary_congr _ hbuild hregs
  | sub f1 f2 f3 => exact Action.binary_congr _ hbuild hregs
  | mul f1 f2 f3 => exact Action.binary_congr _ hbuild hregs
  | div f1 f2 f3 =>
    refine Action.checkReg_congr fun i1 h1 => Action.checkReg_congr fun i2 h2 => Action.checkReg_congr fun i3 h3 => ?_
    obtain ⟨hl, hr⟩ := AgreeOn.sources hregs h1 h2 h3
    rw [hl, hr, hbuild]
  | jmp r => exact Action.jumpIf_congr rfl hregs
  | jmpf r => exact Action.checkReg_congr fun i hi => by rw [jumpBase_congr hpc, AgreeOn.jumpOperand hregs hi]
  | jmpb r => exact Action.checkReg_congr fun i hi => by rw [jumpBase_congr hpc, AgreeOn.jumpOperand hregs hi]
  | eq f1 f2 pad =>
    refine Action.checkReg_congr fun i1 h1 => Action.checkReg_congr fun i2 h2 => ?_
    rw [AgreeOn.head hregs h1, AgreeOn.second hregs h2]
  | jeq r => exact Action.jumpIf_congr (heq (.inl rfl)) hregs
  | jneq r => exact Action.jumpIf_congr (congrArg not (heq (.inr rfl))) hregs
  | aloc r =>
    refine Action.checkReg_congr fun i hi => ?_
    rw [AgreeOn.head hregs hi, Action.allocate, Action.allocate, hheap rfl, hbuild]
  | inc r => exact Action.stepBy_congr 1 hbuild hregs
  | dec r => exact Action.stepBy_congr (-1) hbuild hregs

/-! ### Which instruction can choose which action -/

/-- The opcodes whose pc is not a + n in every case (R24). -/
abbrev jumpOpcodes : List Opcode := [.jmp, .jmpf, .jmpb, .jeq, .jneq]

/-- The opcodes that write a register and nothing else but pc (R21). -/
abbrev regOpcodes : List Opcode := [.load, .add, .sub, .mul, .inc, .dec]

theorem not_jump_of_reg {op : Opcode} (h : op ∈ regOpcodes) : op ∉ jumpOpcodes := by
  revert h
  cases op <;> decide

/-- The register d is the destination of the instruction (R21). -/
def Writes (o : ArithOrder) (i : Instr) (d : Fin 32) : Prop :=
  ∃ b : Byte, writeField o i = some b ∧ b.toNat = d.val

/-- What must hold of an instruction, and of the action's values, for the instruction to choose it. -/
def Action.Fits (s : State) (i : Instr) : Action → Prop
  | .fault c => 4 ≤ (stopBits c).toNat
  | .stop c => (i = .hlt ∧ c = .halted) ∨ (i = .igl ∧ c = .illegalOpcode)
  | .write d _ n => i.opcode ∈ regOpcodes ∧ n = opcodeLength i.opcode ∧ Writes s.build.arithOrder i d
  | .divide d _ _ => i.opcode = .div ∧ Writes s.build.arithOrder i d
  | .jump v => i.opcode ∈ jumpOpcodes ∧ (s.pc.toNat + 2 ≤ 4294967295 → v.toNat = pcAfter s i)
  | .fallThrough => i.opcode ∈ jumpOpcodes ∧ pcAfter s i = s.pc.toNat + 2
  | .setFlag _ => i.opcode = .eq
  | .grow _ => i.opcode = .aloc

theorem Action.fits_fault {s : State} {i : Instr} {c : StopCode} (h : 4 ≤ (stopBits c).toNat) :
    (Action.fault c).Fits s i := h

theorem Action.fits_checkReg {s : State} {i : Instr} {b : Byte} {k : Fin 32 → Action}
    (h : ∀ j : Fin 32, b.toNat = j.val → (k j).Fits s i) : (checkReg b k).Fits s i := by
  rcases index_or_illegal b with ⟨j, hj⟩ | hb
  · rw [checkReg_of_index hj]
    exact h j hj
  · rw [checkReg_of_illegal hb]
    exact fits_fault (by decide)

theorem Action.fits_commit {s : State} {i : Instr} (mode : ArithOverflow) {d : Fin 32} (e : Int) {n : Nat}
    (hi : i.opcode ∈ regOpcodes) (hn : n = opcodeLength i.opcode) (hd : Writes s.build.arithOrder i d) :
    (commit mode d e n).Fits s i := by
  unfold commit
  cases arithResult mode e with
  | some v => exact ⟨hi, hn, hd⟩
  | none =>
    exact fits_fault (by decide)

/-- The destination of an FRRR instruction is the register its write field names, in either ARITH_ORDER (R88). -/
theorem writes_dest {o : ArithOrder} {i : Instr} {f1 f3 : Byte}
    (hw : writeField o i = if o = .srcSrcDst then some f3 else some f1) {i1 i2 i3 : Fin 32}
    (h1 : f1.toNat = i1.val) (h3 : f3.toNat = i3.val) : Writes o i (dest o i1 i2 i3) := by
  cases o with
  | srcSrcDst => exact ⟨f3, hw, h3⟩
  | dstSrcSrc => exact ⟨f1, hw, h1⟩

theorem Action.fits_binary {s : State} {i : Instr} (op : Int → Int → Int) {f1 f2 f3 : Byte}
    (hi : i.opcode ∈ regOpcodes) (hn : 4 = opcodeLength i.opcode)
    (hw : writeField s.build.arithOrder i = if s.build.arithOrder = .srcSrcDst then some f3 else some f1) :
    (binary op f1 f2 f3 s).Fits s i :=
  fits_checkReg fun _ h1 => fits_checkReg fun _ _ => fits_checkReg fun _ h3 =>
    fits_commit _ _ hi hn (writes_dest hw h1 h3)

theorem Action.fits_stepBy {s : State} {i : Instr} (delta : Int) {r : Byte}
    (hi : i.opcode ∈ regOpcodes) (hn : 2 = opcodeLength i.opcode)
    (hw : writeField s.build.arithOrder i = some r) : (stepBy delta r s).Fits s i :=
  fits_checkReg fun _ h => fits_commit _ _ hi hn ⟨r, hw, h⟩

theorem Action.fits_quotient {s : State} {i : Instr} {d : Fin 32} (n1 n2 : Int) (hi : i.opcode = .div)
    (hd : Writes s.build.arithOrder i d) : (quotient d n1 n2).Fits s i := by
  unfold quotient
  split
  · exact fits_fault (by decide)
  · split
    · exact fits_fault (by decide)
    · exact ⟨hi, hd⟩

theorem Action.fits_allocate {s : State} {i : Instr} (k : Int) (hi : i.opcode = .aloc) :
    (allocate k s).Fits s i := by
  unfold allocate
  split
  · exact fits_fault (by decide)
  · split
    · exact fits_fault (by decide)
    · exact hi

theorem unsignedReg_of_index {b : Byte} {j : Fin 32} (h : b.toNat = j.val) (s : State) :
    unsignedReg s b = (s.getReg j).toNat := by
  have hb : b.toNat < 32 := by omega
  rw [unsignedReg, dif_pos hb]
  simp [State.getReg, h]

theorem Action.fits_jumpIf {s : State} {i : Instr} {taken : Bool} {r : Byte} (hj : i.opcode ∈ jumpOpcodes)
    (hp : pcAfter s i = if taken then unsignedReg s r else s.pc.toNat + 2) : (jumpIf taken r s).Fits s i := by
  refine fits_checkReg fun j h => ?_
  rw [unsignedReg_of_index h] at hp
  cases taken with
  | true => exact ⟨hj, fun _ => hp.symm⟩
  | false => exact ⟨hj, hp⟩

theorem Action.fits_jmpf (r : Byte) (s : State) : (action (.jmpf r) s).Fits s (.jmpf r) := by
  refine fits_checkReg fun j h => ?_
  split
  · exact fits_fault (by decide)
  · rename_i hle
    refine ⟨by simp [Instr.opcode], fun _ => ?_⟩
    simp only [jumpBase, jumpOperand] at hle ⊢
    rw [pcAfter, unsignedReg_of_index h, BitVec.toNat_ofNat, Nat.mod_eq_of_lt (by omega)]

theorem Action.fits_jmpb (r : Byte) (s : State) : (action (.jmpb r) s).Fits s (.jmpb r) := by
  refine fits_checkReg fun j h => ?_
  split
  · exact fits_fault (by decide)
  · refine ⟨by simp [Instr.opcode], fun _ => ?_⟩
    rw [pcAfter, unsignedReg_of_index h, BitVec.toNat_ofNat, jumpBase, jumpOperand, Nat.mod_eq_of_lt (by omega)]

/-- Every instruction chooses an action that fits it. -/
theorem action_fits (i : Instr) (s : State) : (action i s).Fits s i := by
  cases i with
  | load r imm => exact Action.fits_checkReg fun _ h => ⟨by simp [Instr.opcode], rfl, r, rfl, h⟩
  | hlt => exact .inl ⟨rfl, rfl⟩
  | igl => exact .inr ⟨rfl, rfl⟩
  | add f1 f2 f3 => exact Action.fits_binary _ (by simp [Instr.opcode]) rfl rfl
  | sub f1 f2 f3 => exact Action.fits_binary _ (by simp [Instr.opcode]) rfl rfl
  | mul f1 f2 f3 => exact Action.fits_binary _ (by simp [Instr.opcode]) rfl rfl
  | div f1 f2 f3 =>
    exact Action.fits_checkReg fun _ h1 => Action.fits_checkReg fun _ _ => Action.fits_checkReg fun _ h3 =>
      Action.fits_quotient _ _ rfl (writes_dest rfl h1 h3)
  | jmp r => exact Action.fits_jumpIf (by simp [Instr.opcode]) rfl
  | jmpf r => exact Action.fits_jmpf r s
  | jmpb r => exact Action.fits_jmpb r s
  | eq f1 f2 pad => exact Action.fits_checkReg fun _ _ => Action.fits_checkReg fun _ _ => rfl
  | jeq r => exact Action.fits_jumpIf (by simp [Instr.opcode]) rfl
  | jneq r => exact Action.fits_jumpIf (by simp [Instr.opcode]) (by cases h : s.eq <;> simp [pcAfter, h])
  | aloc r => exact Action.fits_checkReg fun _ _ => Action.fits_allocate _ rfl
  | inc r => exact Action.fits_stepBy 1 (by simp [Instr.opcode]) rfl rfl
  | dec r => exact Action.fits_stepBy (-1) (by simp [Instr.opcode]) rfl rfl

end Sys2Proof.Machine

/-! SUPPORT. What performing an action changes and what it leaves. -/

namespace Sys2Proof.Machine

/-! ### What performing an action changes and leaves -/

@[simp] theorem Action.perform_prog (a : Action) (s : State) : (a.perform s).prog = s.prog := by cases a <;> rfl

@[simp] theorem Action.perform_build (a : Action) (s : State) : (a.perform s).build = s.build := by cases a <;> rfl

/-- The heap after an action: grown, or as it was. -/
theorem Action.perform_heap (a : Action) (s : State) :
    (∃ k, a = .grow k ∧ (a.perform s).heap = s.heap.grow k) ∨ (a.perform s).heap = s.heap := by
  cases a with
  | grow k => exact .inl ⟨k, rfl, rfl⟩
  | _ => exact .inr rfl

/-- An action that writes a register writes its destination alone. -/
theorem Action.perform_regs_ne {s : State} {i : Instr} {a : Action} (h : a.Fits s i) {j : Fin 32}
    (hj : (a.perform s).regs[j] ≠ s.regs[j]) : Writes s.build.arithOrder i j := by
  have set_ne {d : Fin 32} {v : Word} (hne : (s.regs.set d v)[j] ≠ s.regs[j]) : d = j := by
    refine Decidable.byContradiction fun hd => hne ?_
    exact Vector.getElem_set_ne d.isLt j.isLt (Fin.val_ne_of_ne hd)
  cases a with
  | write d v n =>
    obtain ⟨-, -, hd⟩ := h
    exact set_ne hj ▸ hd
  | divide d q r =>
    obtain ⟨-, hd⟩ := h
    exact set_ne hj ▸ hd
  | _ => exact absurd rfl hj

/-- An action that writes eq is that of an EQ. -/
theorem Action.perform_eq_ne {s : State} {i : Instr} {a : Action} (h : a.Fits s i) (he : (a.perform s).eq ≠ s.eq) :
    i.opcode = .eq := by
  cases a with
  | setFlag f => exact h
  | _ => exact absurd rfl he

/-- An action that writes rem is that of a DIV, and completes. -/
theorem Action.perform_rem_ne {s : State} {i : Instr} {a : Action} (h : a.Fits s i)
    (hr : (a.perform s).rem ≠ s.rem) :
    i.opcode = .div ∧ (a.perform s).pc = s.pc + 4#32 ∧ (a.perform s).status = s.status := by
  cases a with
  | divide d q r => exact ⟨h.1, rfl, rfl⟩
  | _ => exact absurd rfl hr

theorem opcodeLength_of_jump {op : Opcode} (h : op ∈ jumpOpcodes) : opcodeLength op = 2 := by
  revert h
  cases op <;> decide

theorem pcAfter_of_not_jump {i : Instr} (h : i.opcode ∉ jumpOpcodes) (s : State) :
    pcAfter s i = s.pc.toNat + opcodeLength i.opcode := by
  cases i with
  | jmp r | jmpf r | jmpb r | jeq r | jneq r => simp [Instr.opcode] at h
  | _ => rfl

/-- Where the instruction's bytes end at or below 2^32 - 1, every action but a fault leaves the pc of R24, exactly. -/
theorem Action.perform_pc {s : State} {i : Instr} {a : Action} (h : a.Fits s i)
    (hn : s.pc.toNat + opcodeLength i.opcode ≤ 4294967295) :
    (∃ c, a = .fault c) ∨ (a.perform s).pc.toNat = pcAfter s i := by
  have sequential {n : Nat} (hi : i.opcode ∉ jumpOpcodes) (hl : opcodeLength i.opcode = n) :
      (s.pc + BitVec.ofNat 32 n).toNat = pcAfter s i := by
    rw [pcAfter_of_not_jump hi, ← hl, BitVec.toNat_add, BitVec.toNat_ofNat]
    omega
  cases a with
  | fault c => exact .inl ⟨c, rfl⟩
  | stop c => rcases h with ⟨rfl, -⟩ | ⟨rfl, -⟩ <;> exact .inr (sequential (by simp [Instr.opcode]) rfl)
  | write d v n =>
    obtain ⟨hi, rfl, -⟩ := h
    exact .inr (sequential (not_jump_of_reg hi) rfl)
  | divide d q r =>
    obtain ⟨hi, -⟩ := h
    exact .inr (sequential (by simp [hi]) (by rw [hi]; rfl))
  | jump v =>
    obtain ⟨hi, hv⟩ := h
    rw [opcodeLength_of_jump hi] at hn
    exact .inr (hv hn)
  | fallThrough =>
    obtain ⟨hi, hp⟩ := h
    rw [opcodeLength_of_jump hi] at hn
    rw [hp]
    refine .inr ?_
    show (s.pc + BitVec.ofNat 32 2).toNat = _
    rw [BitVec.toNat_add, BitVec.toNat_ofNat]
    omega
  | setFlag f =>
    have hi : i.opcode = .eq := h
    exact .inr (sequential (by simp [hi]) (by rw [hi]; rfl))
  | grow k =>
    have hi : i.opcode = .aloc := h
    exact .inr (sequential (by simp [hi]) (by rw [hi]; rfl))

/-- The code after an action: a fault code, the code of HLT or IGL, or as it was. -/
theorem Action.perform_code {s : State} {i : Instr} {a : Action} (h : a.Fits s i) :
    (∃ c, a = .fault c ∧ 4 ≤ (a.perform s).code.toNat) ∨
      (i = .hlt ∧ (a.perform s).code = 1#4) ∨ (i = .igl ∧ (a.perform s).code = 3#4) ∨
      (a.perform s).status = s.status := by
  cases a with
  | fault c => exact .inl ⟨c, rfl, by rw [perform, State.raise_code]; exact h⟩
  | stop c =>
    rcases h with ⟨rfl, rfl⟩ | ⟨rfl, rfl⟩
    · exact .inr (.inl ⟨rfl, State.setCode_code _ _⟩)
    · exact .inr (.inr (.inl ⟨rfl, State.setCode_code _ _⟩))
  | _ => exact .inr (.inr (.inr rfl))

theorem code_of_status_zero {s : State} (h : s.status = 0x00#8) : s.code = 0#4 := by rw [State.code, h]; rfl

end Sys2Proof.Machine

/-! The statements about single instructions: what they read and write, and the pc they leave (10_state.md sections 1
to 6). -/

namespace Sys2Proof.Machine

/-! ### Noninterference -/

/-- With other register values, the same action differs in the registers alone. -/
theorem Action.perform_other_regs (a : Action) (s : State) (regs : Vector Word 32) :
    { a.perform s with regs := (a.perform { s with regs := regs }).regs } = a.perform { s with regs := regs } := by
  cases a <;> rfl

/-- With the other eq, the same action differs in eq alone. -/
theorem Action.perform_other_eq (a : Action) (s : State) (f : Bool) :
    { a.perform { s with eq := f } with eq := (a.perform s).eq } = a.perform s := by
  cases a <;> rfl

/-- With another rem, the same action differs in rem alone. -/
theorem Action.perform_other_rem (a : Action) (s : State) (v : Word) :
    { a.perform { s with rem := v } with rem := (a.perform s).rem } = a.perform s := by
  cases a <;> rfl

theorem Writes.unique {o : ArithOrder} {i : Instr} {d j : Fin 32} (hd : Writes o i d) (hj : Writes o i j) : d = j := by
  obtain ⟨b, hb, hbd⟩ := hd
  obtain ⟨c, hc, hcj⟩ := hj
  rw [hb, Option.some.injEq] at hc
  exact Fin.ext (by rw [← hbd, hc, hcj])

/-- HLT, IGL, the jumps, EQ and ALOC have no destination register (R21). -/
theorem not_writes {i : Instr} (h : i.opcode ∈ [Opcode.hlt, .igl, .eq, .aloc] ++ jumpOpcodes) (o : ArithOrder)
    (j : Fin 32) : ¬Writes o i j := by
  rintro ⟨b, hb, -⟩
  cases i with
  | load | add | sub | mul | div | inc | dec => simp [Instr.opcode] at h
  | _ => cases hb

theorem faultStatus_ne_zero {c : StopCode} (h : 4 ≤ (stopBits c).toNat) : (stopBits c).setWidth 8 ≠ 0x00#8 := by
  revert h
  cases c <;> decide

/-- The same action on two register files leaves the same value in the instruction's destination, if it is no fault. -/
theorem Action.perform_destination {s : State} {i : Instr} {a : Action} (h : a.Fits s i) (regs : Vector Word 32)
    (ht : (a.perform s).status = 0x00#8) {j : Fin 32} (hw : Writes s.build.arithOrder i j) :
    (a.perform s).regs[j] = (a.perform { s with regs := regs }).regs[j] := by
  cases a with
  | fault c => exact absurd ht (faultStatus_ne_zero h)
  | write d v n =>
    obtain ⟨-, -, hd⟩ := h
    obtain rfl := hd.unique hw
    simp [perform]
  | divide d q r =>
    obtain ⟨-, hd⟩ := h
    obtain rfl := hd.unique hw
    simp [perform]
  | stop c => rcases h with ⟨rfl, -⟩ | ⟨rfl, -⟩ <;> exact absurd hw (not_writes (by simp [Instr.opcode]) _ j)
  | jump v => exact absurd hw (not_writes (List.mem_append_right _ h.1) _ j)
  | fallThrough => exact absurd hw (not_writes (List.mem_append_right _ h.1) _ j)
  | setFlag f => exact absurd hw (not_writes (by simp [show i.opcode = .eq from h]) _ j)
  | grow k => exact absurd hw (not_writes (by simp [show i.opcode = .aloc from h]) _ j)

/-- Settles O34: the destination by `Action.perform_regs_ne`; the rest because the choice of action depends on the
registers of the table alone (`action_congr`), and the action then writes the same value in both states. -/
theorem registerReadsAndWrites : Obligations.RegisterReadsAndWrites := by
  refine ⟨fun i s t h j hj => ?_, fun i s regs t u hagree ht hu => ?_⟩
  · rw [eq_perform_of_exec h] at hj
    exact Action.perform_regs_ne (action_fits i s) hj
  · have same : action i s = action i { s with regs := regs } :=
      action_congr rfl rfl (fun _ => rfl) (fun _ => rfl) hagree
    rw [eq_perform_of_exec ht, eq_perform_of_exec hu, ← same]
    exact ⟨Action.perform_other_regs _ s regs, fun _ hz b hb j hj =>
      Action.perform_destination (action_fits i s) regs hz ⟨b, hb, hj⟩⟩

/-- Settles O35: a fault keeps pc, and every other action leaves the pc of R24 (`Action.perform_pc`). -/
theorem pcAfterInstruction : Obligations.PcAfterInstruction := by
  intro i s t hs hn h
  rw [eq_perform_of_exec h]
  have hf := action_fits i s
  refine ⟨fun hc => ?_, fun hc => ?_⟩
  · rcases Action.perform_pc hf hn with ⟨c, ha⟩ | hp
    · rw [ha] at hf hc
      rw [Action.perform, State.raise_code] at hc
      exact absurd (show 4 ≤ (stopBits c).toNat from hf) (by omega)
    · exact hp
  · rcases Action.perform_code hf with ⟨c, ha, -⟩ | ⟨-, h1⟩ | ⟨-, h3⟩ | h0
    · rw [ha]
      rfl
    · rw [h1] at hc
      exact absurd hc (by decide)
    · rw [h3] at hc
      exact absurd hc (by decide)
    · rw [code_of_status_zero (h0.trans hs)] at hc
      exact absurd hc (by decide)

/-- An EQ on legal registers sets the flag to their comparison (R204). -/
theorem action_eq_of_index {f1 f2 : Byte} {i1 i2 : Fin 32} (h1 : f1.toNat = i1.val) (h2 : f2.toNat = i2.val)
    (pad : Byte) (s : State) :
    action (.eq f1 f2 pad) s = .setFlag (equalFlag (s.getReg i1) (s.getReg i2)) := by
  rw [action, Action.checkReg_of_index h1, Action.checkReg_of_index h2]

/-- An EQ that is no fault writes an eq that does not depend on the old one. -/
theorem Action.perform_eq_same {s : State} {i : Instr} {a : Action} (h : a.Fits s i) (hi : i.opcode = .eq)
    (ht : (a.perform s).status = 0x00#8) (f : Bool) : (a.perform s).eq = (a.perform { s with eq := f }).eq := by
  cases a with
  | setFlag g => rfl
  | fault c => exact absurd ht (faultStatus_ne_zero h)
  | stop c => rcases h with ⟨rfl, -⟩ | ⟨rfl, -⟩ <;> cases hi
  | write | jump | fallThrough => simp [Fits, hi] at h
  | divide d q r => cases hi.symm.trans h.1
  | grow k => cases hi.symm.trans h

/-- Settles O36: EQ alone chooses to write the flag (`Action.perform_eq_ne`), and no choice but that of JEQ and JNEQ
depends on it (`action_congr`). -/
theorem eqFlagRule : Obligations.EqFlagRule := by
  refine ⟨rfl, fun i s t h he => ?_, fun f1 f2 pad i1 i2 s h1 h2 => ?_, fun i s t u f hjeq hjneq ht hu => ?_,
    fun _ _ _ => ⟨rfl, .ok, rfl⟩⟩
  · rw [eq_perform_of_exec h] at he
    exact Action.perform_eq_ne (action_fits i s) he
  · refine ⟨_, exec_eq_perform _ s, ?_⟩
    rw [action_eq_of_index h1 h2]
    exact beq_iff_eq
  · have same : action i s = action i { s with eq := f } :=
      action_congr rfl rfl (fun h => absurd h (not_or.2 ⟨hjeq, hjneq⟩)) (fun _ => rfl) fun _ _ _ _ => rfl
    rw [eq_perform_of_exec ht, eq_perform_of_exec hu, ← same]
    exact ⟨Action.perform_other_eq _ s f, fun hi _ hz => Action.perform_eq_same (action_fits i s) hi hz f⟩

/-- A DIV that is no fault writes a rem that does not depend on the old one. -/
theorem Action.perform_rem_same {s : State} {i : Instr} {a : Action} (h : a.Fits s i) (hi : i.opcode = .div)
    (ht : (a.perform s).status = 0x00#8) (v : Word) : (a.perform s).rem = (a.perform { s with rem := v }).rem := by
  cases a with
  | divide d q r => rfl
  | fault c => exact absurd ht (faultStatus_ne_zero h)
  | stop c => rcases h with ⟨rfl, -⟩ | ⟨rfl, -⟩ <;> cases hi
  | write | jump | fallThrough => simp [Fits, hi] at h
  | setFlag f => cases hi.symm.trans h
  | grow k => cases hi.symm.trans h

/-- Settles O37: DIV alone chooses to write rem, by completing (`Action.perform_rem_ne`), and no choice depends on it
(`action_congr`). -/
theorem remainderRule : Obligations.RemainderRule := by
  refine ⟨rfl, fun i s t h hr => ?_, fun i s t u v ht hu => ?_, fun _ _ => rfl⟩
  · rw [eq_perform_of_exec h] at hr ⊢
    exact Action.perform_rem_ne (action_fits i s) hr
  · have same : action i s = action i { s with rem := v } :=
      action_congr rfl rfl (fun _ => rfl) (fun _ => rfl) fun _ _ _ _ => rfl
    rw [eq_perform_of_exec ht, eq_perform_of_exec hu, ← same]
    exact ⟨Action.perform_other_rem _ s v, fun hi _ hz => Action.perform_rem_same (action_fits i s) hi hz v⟩

/-- Settles O40: no action touches program store or build, and only the growth ALOC chooses touches the heap; growing
keeps every byte below the old length (`Memory.read_grow`). -/
theorem memoryFrame : Obligations.MemoryFrame := by
  intro i s t h
  have hf := action_fits i s
  rw [eq_perform_of_exec h, Action.perform_prog, Action.perform_build]
  refine ⟨rfl, fun _ => rfl, rfl, ?_⟩
  rcases Action.perform_heap (action i s) s with ⟨k, ha, hg⟩ | hsame
  · rw [ha] at hf
    rw [hg]
    exact ⟨fun hi => absurd hf hi, fun a ha => by rw [Memory.read_grow, if_pos ha]⟩
  · rw [hsame]
    exact ⟨fun _ => ⟨rfl, fun _ => rfl⟩, fun _ _ => rfl⟩

/-- Settles O46: the instruction's bytes lie in the program, so its pc is that of R24 (`Action.perform_pc`), which for
a non-jump is a + n (`pcAfter_of_not_jump`). -/
theorem sequentialAdvanceNeverWraps : Obligations.SequentialAdvanceNeverWraps := by
  intro s t hwf hs h hc hj
  obtain ⟨⟨-, -, hmax, -⟩, -, -, hlen, -⟩ := hwf
  rcases step_cases s with ⟨hsticky, -⟩ | ⟨-, -, he⟩ | ⟨-, -, -, he⟩ | ⟨-, hin, he⟩
  · rw [hs] at hsticky
    cases hsticky
  · rw [he] at h
    cases h
    exact absurd hc (by rw [State.stopAtEnd, State.setCode_code]; decide)
  · rw [he] at h
    cases h
    exact absurd hc (by rw [State.raise_code]; decide)
  · rw [he] at h
    rw [eq_perform_of_exec h] at hc ⊢
    rw [← instrAtPc_opcode] at hin hj ⊢
    have hf := action_fits (instrAtPc s) (s.setCode .running)
    rcases Action.perform_pc hf (by rw [State.setCode_pc]; omega) with ⟨c, ha⟩ | hp
    · rw [ha] at hf hc
      rw [Action.perform, State.raise_code] at hc
      rw [Action.Fits, hc] at hf
      exact absurd hf (by decide)
    · rw [hp, pcAfter_of_not_jump hj, State.setCode_pc]
      exact ⟨rfl, hin, by omega⟩

end Sys2Proof.Machine

/-! The statements about steps and host commands: the invariant, STEP and RUN, and the host's own commands
(10_state.md sections 5 to 9). -/

namespace Sys2Proof.Machine

/-! ### Steps -/

/-- The shape of what an instruction did (`exec_effect`), for the state it left. -/
theorem effect_of_exec {i : Instr} {s t : State} (h : exec i s = .next t) : Effect s t := by
  obtain ⟨u, hu, he⟩ := exec_effect i s
  rw [h] at hu
  cases hu
  exact he

/-- Everything a step can leave: the state as it was, a write of the code alone, or the effect of an instruction from
RUNNING. -/
theorem step_effect {s t : State} (h : step s = .next t) :
    t = s ∨ (∃ c, t = s.setCode c) ∨ Effect (s.setCode .running) t := by
  rcases step_cases s with ⟨-, he⟩ | ⟨-, -, he⟩ | ⟨-, -, -, he⟩ | ⟨-, -, he⟩ <;> rw [he] at h
  · cases h
    exact .inl rfl
  · cases h
    exact .inr (.inl ⟨_, rfl⟩)
  · cases h
    exact .inr (.inl ⟨_, rfl⟩)
  · exact .inr (.inr (effect_of_exec h))

/-- Every step answers a next state. -/
theorem exists_step_eq_next (s : State) : ∃ t : State, step s = .next t := by
  rcases step_cases s with ⟨-, he⟩ | ⟨-, -, he⟩ | ⟨-, -, -, he⟩ | ⟨-, -, he⟩ <;> rw [he]
  · exact ⟨_, rfl⟩
  · exact ⟨_, rfl⟩
  · exact ⟨_, rfl⟩
  · exact ⟨_, exec_eq_perform _ _⟩

/-! ### The invariant -/

/-- Every code the model writes is one that R242 defines, with the reserved bits zero. -/
theorem codeStatus_le (c : StopCode) : ((stopBits c).setWidth 8).toNat ≤ 12 := by cases c <;> decide

theorem State.wf_setCode {s : State} (h : s.wf) (c : StopCode) : (s.setCode c).wf := by
  obtain ⟨hbuild, hprog, hheap, hplen, hhlen, hcells, -⟩ := h
  exact ⟨hbuild, hprog, hheap, hplen, hhlen, hcells, codeStatus_le c⟩

/-- Every effect of an instruction keeps a legal state legal: a growing heap stays within HEAP_MAX and lists no byte. -/
theorem Effect.wf {s t : State} (he : Effect s t) (h : s.wf) : t.wf := by
  cases he with
  | fault c _ => exact State.wf_setCode h c
  | stop c _ => exact State.wf_setCode (s := s.advance 1) h c
  | completes regs pc eq rem k hk heap hh =>
    obtain ⟨hbuild, hprog, hheap, hplen, hhlen, hcells, hstatus⟩ := h
    rcases hh with rfl | rfl
    · exact ⟨hbuild, hprog, hheap, hplen, hhlen, hcells, hstatus⟩
    · exact ⟨hbuild, hprog, Memory.wf_grow hheap k, hplen, by simp only [Memory.grow_len]; omega,
        by simp [Memory.grow, hcells], hstatus⟩

/-- Settles O42, from the three things a step can do (`step_effect`). -/
theorem stepKeepsLegal : Obligations.StepKeepsLegal := by
  intro s t h hstep
  rcases step_effect hstep with rfl | ⟨c, rfl⟩ | he
  · exact h
  · exact State.wf_setCode h c
  · exact he.wf (State.wf_setCode h .running)

theorem Memory.wf_empty : ({ cells := [], len := 0 } : Memory).wf := by decide

theorem State.wf_afterReset {s : State} (h : s.build.wf) : s.afterReset.wf :=
  ⟨h, Memory.wf_empty, Memory.wf_empty, Nat.zero_le _, Nat.zero_le _, rfl, Nat.zero_le _⟩

/-- Settles O41: the reset state is RESET of the default build. -/
theorem resetIsLegal : Obligations.ResetIsLegal :=
  ⟨State.wf_afterReset (s := State.reset) (by decide), fun _ => State.wf_afterReset⟩

/-- An appended byte keeps a legal state legal, below PROG_MAX. -/
theorem State.wf_append {s : State} (h : s.wf) (b : Byte) (hlt : s.prog.len < s.build.progMax) :
    (s.setProg (s.prog.append b)).wf := by
  obtain ⟨hbuild, hprog, hheap, -, hhlen, hcells, hstatus⟩ := h
  exact ⟨hbuild, Memory.wf_append hprog b, hheap, hlt, hhlen, hcells, hstatus⟩

/-- Settles O43: being legal is kept by every step (`stepKeepsLegal`), so by RUN, and by RESET and the writes of the
host (`serve_cases`). -/
theorem commandsKeepLegal : Obligations.CommandsKeepLegal := by
  intro fuel c s t r h hserve
  exact serve_cases (P := fun a b => a.wf → b.wf) (fun _ ha => ha) (fun _ _ _ hab hbc ha => hbc (hab ha))
    (fun a b hstep ha => stepKeepsLegal a b ha hstep) fuel c s t r hserve
    (fun _ hs => State.wf_afterReset hs.1) (fun b _ hlt hs => State.wf_append hs b hlt) (fun _ _ _ hs => hs)
    (fun _ _ hs => hs) h

/-! ### STEP and RUN -/

/-- Settles O15. -/
theorem stepCommandResult : Obligations.StepCommandResult := by
  intro fuel s
  obtain ⟨t, ht⟩ := exists_step_eq_next s
  have hserve : serve fuel .step s = some (t, stepResponse t) := (serveStep_eq_some_iff s t _).2 ⟨ht, rfl⟩
  refine ⟨t, ht, ?_⟩
  by_cases hc : t.code = 0#4
  · exact .inl ⟨hc, by rw [hserve, (stepResponse_eq_continues_iff t).2 hc]⟩
  · exact .inr ⟨hc, by rw [hserve, stepResponse_of_stop hc]⟩

/-- RUN returns what a last step answers, after steps that continue, fewer than the fuel. -/
theorem serveRun_eq_some_iff (fuel : Nat) (s t : State) (r : Response) :
    serveRun fuel s = some (t, r) ↔
      ∃ (k : Nat) (u : State), k < fuel ∧ continuesTo k s u ∧ step u = .next t ∧ t.code ≠ 0#4 ∧ r = .stop t.code := by
  induction fuel generalizing s with
  | zero => simp [serveRun]
  | succ n ih =>
    rw [serveRun_succ_cases]
    constructor
    · rintro (⟨hstep, hc, hr⟩ | ⟨v, hv, hv0, hrun⟩)
      · exact ⟨0, s, Nat.succ_pos n, rfl, hstep, hc, hr⟩
      · obtain ⟨k, u, hk, hto, hlast⟩ := (ih v).1 hrun
        exact ⟨k + 1, u, Nat.succ_lt_succ hk, ⟨v, hv, hv0, hto⟩, hlast⟩
    · rintro ⟨k, u, hk, hto, hlast⟩
      cases k with
      | zero =>
        cases hto
        exact .inl hlast
      | succ k =>
        obtain ⟨v, hv, hv0, hto⟩ := hto
        exact .inr ⟨v, hv, hv0, (ih v).2 ⟨k, u, Nat.lt_of_succ_lt_succ hk, hto, hlast⟩⟩

/-- Settles O49, by induction on the fuel (`serveRun_eq_some_iff`). -/
theorem runCommandRule : Obligations.RunCommandRule := serveRun_eq_some_iff

/-! ### The host's own commands -/

/-- A command other than RESET, STEP and RUN leaves everything but registers, flag and program store. -/
theorem serve_frame {fuel : Nat} {c : Command} {s t : State} {r : Response} (h : serve fuel c s = some (t, r)) :
    (c = .reset ∨ c = .step ∨ c = .run) ∨ t = { s with regs := t.regs, eq := t.eq, prog := t.prog } := by
  cases c <;> simp only [serve, serveAppend, serveRegRead, serveRegWrite] at h
  case reset => exact .inl (.inl rfl)
  case step => exact .inl (.inr (.inl rfl))
  case run => exact .inl (.inr (.inr rfl))
  case append | regRead | regWrite => split at h <;> cases h <;> exact .inr rfl
  all_goals
    cases h
    exact .inr rfl

/-- Settles O52, by the frame of the host's commands (`serve_frame`). -/
theorem remAndPcCommandsRule : Obligations.RemAndPcCommandsRule := by
  refine ⟨fun _ _ => ⟨rfl, rfl⟩, fun fuel c s t r h hne => ?_⟩
  rcases serve_frame h with hc | ht
  · exact hc
  · rw [ht] at hne
    exact absurd hne (by simp)

/-- The status register holds a code, with bits 7:4 zero (R28). -/
def State.PlainStatus (s : State) : Prop := s.status = s.code.setWidth 8

theorem State.plainStatus_setCode (s : State) (c : StopCode) : (s.setCode c).PlainStatus := by
  rw [PlainStatus, setCode_code, setCode_status]

theorem State.PlainStatus.of_status_eq {s t : State} (h : s.PlainStatus) (he : t.status = s.status) :
    t.PlainStatus := by
  rw [PlainStatus, code, he]
  exact h

/-- An instruction leaves a plain status plain. -/
theorem Effect.plainStatus {s t : State} (he : Effect s t) (h : s.PlainStatus) : t.PlainStatus := by
  cases he with
  | fault c _ => exact State.plainStatus_setCode s c
  | stop c _ => exact State.plainStatus_setCode _ c
  | completes => exact h

/-- A step leaves status as it was or plain. -/
theorem step_status {s t : State} (h : step s = .next t) : t.status = s.status ∨ t.PlainStatus := by
  rcases step_effect h with rfl | ⟨c, rfl⟩ | he
  · exact .inl rfl
  · exact .inr (State.plainStatus_setCode s c)
  · exact .inr (he.plainStatus (State.plainStatus_setCode s .running))

/-- A command leaves status as it was or plain. -/
theorem serve_status {fuel : Nat} {c : Command} {s t : State} {r : Response} (h : serve fuel c s = some (t, r)) :
    t.status = s.status ∨ t.PlainStatus := by
  refine serve_cases (P := fun a b => b.status = a.status ∨ b.PlainStatus) (fun _ => .inl rfl) ?_
    (fun _ _ => step_status) fuel c s t r h (fun _ => .inr rfl) (fun _ _ _ => .inl rfl) (fun _ _ _ => .inl rfl)
    (fun _ _ => .inl rfl)
  rintro a b c hab (hbc | hc)
  · exact hab.imp hbc.trans fun hb => hb.of_status_eq hbc
  · exact .inr hc

/-- Settles O38: STATUS_READ is the code widened; a status that changes is plain (`serve_status`), and only RESET, STEP
and RUN change it (`serve_frame`). -/
theorem statusRegisterRule : Obligations.StatusRegisterRule := by
  refine ⟨fun fuel s => ⟨s.code.setWidth 8, rfl, ?_, ?_⟩, fun fuel c s t r h hne => ⟨?_, ?_⟩⟩
  · generalize s.code = k
    revert k
    decide
  · generalize s.code = k
    revert k
    decide
  · exact (serve_frame h).resolve_right fun ht => hne (by rw [ht])
  · exact (serve_status h).resolve_left hne

/-- The result of a step is no CMD_ERROR. -/
theorem stepResponse_ne_cmdError (s : State) : stepResponse s ≠ .cmdError := by
  unfold stepResponse
  split <;> simp

/-- Settles O54: RESET, STEP and RUN never answer CMD_ERROR, and the other commands that do have made no change. -/
theorem cmdErrorChangesNothing : Obligations.CmdErrorChangesNothing := by
  intro fuel c s t h
  cases c <;> simp only [serve, serveAppend, serveRegRead, serveRegWrite] at h
  case step => exact absurd ((serveStep_eq_some_iff s t _).1 h).2.symm (stepResponse_ne_cmdError t)
  case run =>
    obtain ⟨k, u, -, -, -, -, hr⟩ := (serveRun_eq_some_iff fuel s t _).1 h
    cases hr
  case append | regRead | regWrite =>
    split at h <;> cases h
    rfl
  case heapRead | progRead => exact (congrArg Prod.fst (Option.some.inj h)).symm
  all_goals cases h

/-- An instruction run from RUNNING does not leave END_OF_PROGRAM. -/
theorem code_ne_endOfProgram_of_exec {i : Instr} {s t : State} (h : exec i (s.setCode .running) = .next t) :
    t.code ≠ 2#4 := by
  rw [eq_perform_of_exec h]
  rcases Action.perform_code (action_fits i (s.setCode .running)) with ⟨-, -, hc⟩ | ⟨-, hc⟩ | ⟨-, hc⟩ | hc
  · intro h2
    rw [h2] at hc
    exact absurd hc (by decide)
  · rw [hc]
    decide
  · rw [hc]
    decide
  · rw [code_of_status_zero hc]
    decide

/-- With a program byte at pc, a step from END_OF_PROGRAM does not stop there again (R121). -/
theorem step_leaves_endOfProgram {s : State} (hc : s.code = 2#4) (hpc : s.pc.toNat < s.prog.len) :
    ∃ u : State, step s = .next u ∧ u.code ≠ 2#4 := by
  obtain ⟨u, hu⟩ := exists_step_eq_next s
  refine ⟨u, hu, ?_⟩
  rcases step_cases s with ⟨hs, -⟩ | ⟨-, hend, -⟩ | ⟨-, -, -, he⟩ | ⟨-, -, he⟩
  · rw [(State.sticky_eq_false_iff s).2 (.inr hc)] at hs
    cases hs
  · omega
  · rw [he] at hu
    cases hu
    rw [State.raise_code]
    decide
  · rw [he] at hu
    exact code_ne_endOfProgram_of_exec hu

/-- Settles O48: the byte by read after append (`Memory.read_append`), the next step by `step_leaves_endOfProgram`. -/
theorem appendCommandRule : Obligations.AppendCommandRule := by
  intro fuel b s hwf
  refine ⟨fun hlt => ⟨s.prog.append b, ?_, rfl, ?_, fun a ha => ?_, fun hc hpc => ?_⟩, fun hfull => ?_⟩
  · rw [serve, serveAppend, if_pos hlt]
    rfl
  · rw [Memory.read_append hwf, if_pos rfl]
  · rw [Memory.read_append hwf, if_neg (Nat.ne_of_lt ha)]
  · exact step_leaves_endOfProgram (s := s.setProg (s.prog.append b)) hc
      (by rw [State.setProg_pc, State.setProg_prog, Memory.append_len, hpc]; exact Nat.lt_succ_self _)
  · rw [serve, serveAppend, if_neg (Nat.not_lt.2 hfull)]

/-- Settles O47. -/
theorem resetCommandRule : Obligations.ResetCommandRule := by
  intro fuel s
  refine ⟨s.afterReset, rfl, fun j => ?_, rfl, rfl, rfl, rfl, rfl, fun a => ?_, rfl, fun a => ?_, rfl⟩
  · exact Vector.getElem_replicate _
  · exact Memory.read_of_ge (Nat.zero_le a)
  · exact Memory.read_of_ge (Nat.zero_le a)

/-- Settles O51, from the index check of the two commands. -/
theorem registerCommandsRule : Obligations.RegisterCommandsRule := by
  refine fun fuel v s => ⟨fun i => ⟨?_, ?_⟩, fun n hn => ⟨?_, ?_⟩⟩
  · rw [serve, serveRegRead, dif_pos i.isLt]
    rfl
  · rw [serve, serveRegWrite, dif_pos i.isLt]
    rfl
  · rw [serve, serveRegRead, dif_neg (by omega)]
  · rw [serve, serveRegWrite, dif_neg (by omega)]

theorem readResponse_of_read {m : Memory} {addr : Word} {b : Byte} (h : m.read addr.toNat = some b) :
    readResponse m addr = .byte b := by rw [readResponse, h]

theorem readResponse_of_ge {m : Memory} {addr : Word} (h : m.len ≤ addr.toNat) :
    readResponse m addr = .cmdError := by rw [readResponse, Memory.read_of_ge h]

/-- Settles O53, by what a read answers below and past the length. -/
theorem memoryReadCommandsRule : Obligations.MemoryReadCommandsRule := by
  refine fun fuel s addr => ⟨rfl, rfl, fun b h => ?_, fun b h => ?_,
    fun h => ⟨cellsRead s.heap.cells addr.toNat, ?_⟩, fun h => ⟨cellsRead s.prog.cells addr.toNat, ?_⟩, fun h => ?_,
    fun h => ?_⟩
  · rw [serve, readResponse_of_read h]
  · rw [serve, readResponse_of_read h]
  · rw [serve, readResponse_of_read (Memory.read_of_lt h)]
  · rw [serve, readResponse_of_read (Memory.read_of_lt h)]
  · rw [serve, readResponse_of_ge h]
  · rw [serve, readResponse_of_ge h]

end Sys2Proof.Machine

/-! The statement about the program store: steps leave it and the build alone, and the host only lengthens it
(20_memory.md section 6). -/

namespace Sys2Proof.Machine

/-! ### A byte sequence that is a front part of another -/

/-- `n` holds every byte of `m` at its address, and may be longer. -/
def Memory.Extends (n m : Memory) : Prop := m.len ≤ n.len ∧ ∀ a : Nat, a < m.len → n.read a = m.read a

theorem Memory.Extends.refl (m : Memory) : m.Extends m := ⟨Nat.le_refl _, fun _ _ => rfl⟩

theorem Memory.Extends.trans {l m n : Memory} (hnm : n.Extends m) (hml : m.Extends l) : n.Extends l := by
  obtain ⟨hlen, hread⟩ := hnm
  obtain ⟨hlen', hread'⟩ := hml
  exact ⟨Nat.le_trans hlen' hlen, fun a ha => (hread a (Nat.lt_of_lt_of_le ha hlen')).trans (hread' a ha)⟩

/-- An append writes at the old length alone, so it keeps every byte present, whatever the form of the cells. -/
theorem Memory.append_extends (m : Memory) (b : Byte) : (m.append b).Extends m := by
  refine ⟨Nat.le_succ _, fun a ha => ?_⟩
  rw [read_of_lt ha, read_of_lt (Nat.lt_succ_of_lt ha)]
  exact congrArg some (cellsRead_cellsWrite_ne m.cells b (Nat.ne_of_lt ha))

/-! ### The program store and the build -/

/-- No effect of an instruction touches program store or build. -/
theorem Effect.prog_build {s t : State} (he : Effect s t) : t.prog = s.prog ∧ t.build = s.build := by
  cases he <;> exact ⟨rfl, rfl⟩

/-- A step touches neither program store nor build. -/
theorem step_prog_build {s t : State} (h : step s = .next t) : t.prog = s.prog ∧ t.build = s.build := by
  rcases step_effect h with rfl | ⟨c, rfl⟩ | he
  · exact ⟨rfl, rfl⟩
  · exact ⟨rfl, rfl⟩
  · exact he.prog_build

/-- No command touches the build, RESET included (R270). -/
theorem serve_build {fuel : Nat} {c : Command} {s t : State} {r : Response} (h : serve fuel c s = some (t, r)) :
    t.build = s.build :=
  serve_cases (P := fun a b => b.build = a.build) (fun _ => rfl) (fun _ _ _ hab hbc => hbc.trans hab)
    (fun _ _ hstep => (step_prog_build hstep).2) fuel c s t r h (fun _ => rfl) (fun _ _ _ => rfl) (fun _ _ _ => rfl)
    (fun _ _ => rfl)

/-- A command other than RESET at most lengthens the program store. -/
theorem serve_prog_extends {fuel : Nat} {c : Command} {s t : State} {r : Response}
    (h : serve fuel c s = some (t, r)) (hreset : c ≠ .reset) : t.prog.Extends s.prog :=
  serve_cases (P := fun a b => b.prog.Extends a.prog) (fun a => .refl a.prog) (fun _ _ _ hab hbc => hbc.trans hab)
    (fun a _ hstep => (step_prog_build hstep).1 ▸ .refl a.prog) fuel c s t r h (fun hc => absurd hc hreset)
    (fun b _ _ => s.prog.append_extends b) (fun _ _ _ => .refl s.prog) (fun _ _ => .refl s.prog)

/-- A command other than RESET and APPEND leaves the program store as it was. -/
theorem serve_prog_eq {fuel : Nat} {c : Command} {s t : State} {r : Response} (h : serve fuel c s = some (t, r))
    (hreset : c ≠ .reset) (happend : ∀ b : Byte, c ≠ .append b) : t.prog = s.prog :=
  serve_cases (P := fun a b => b.prog = a.prog) (fun _ => rfl) (fun _ _ _ hab hbc => hbc.trans hab)
    (fun _ _ hstep => (step_prog_build hstep).1) fuel c s t r h (fun hc => absurd hc hreset)
    (fun b hc _ => absurd hc (happend b)) (fun _ _ _ => rfl) (fun _ _ => rfl)

/-- Settles O44: no step touches program store or build (`step_prog_build`), so neither does RUN, and an append only
lengthens the program store (`serve_prog_extends`). -/
theorem programStoreWrittenOnlyByHost : Obligations.ProgramStoreWrittenOnlyByHost := by
  refine ⟨fun s t => step_prog_build, fun fuel c s t r h => ⟨serve_build h, fun hreset => ?_, serve_prog_eq h⟩⟩
  obtain ⟨-, hread⟩ := serve_prog_extends h hreset
  exact hread

end Sys2Proof.Machine

/-! SUPPORT. The opcode lookup against the map, and the decoder against the encoder, for every instruction at once
(30_encoding.md sections 1 to 3). -/

namespace Sys2Proof

/-! ### Opcode bytes -/

theorem exists_opcodeByte {op : Opcode} (h : op ≠ .igl) (m : OpcodeMap) : ∃ b : Byte, opcodeByte m op = some b := by
  cases op with
  | igl => exact absurd rfl h
  | _ => exact ⟨_, rfl⟩

/-- Whatever real opcode the lookup answers, the byte is that opcode's, in any map. -/
theorem opcodeByte_opcodeOf {m : OpcodeMap} {b : Byte} (h : opcodeOf m b ≠ .igl) :
    opcodeByte m (opcodeOf m b) = some b := by
  rcases opcodeOf_cases m b with ⟨-, higl⟩ | ⟨op, -, hop, hb⟩
  · exact absurd higl h
  · rw [hop, hb]

/-- IGL is exactly the bytes outside the map (R83). -/
theorem opcodeOf_eq_igl_iff (m : OpcodeMap) (b : Byte) : opcodeOf m b = .igl ↔ b ∉ m.bytes := by
  rcases opcodeOf_cases m b with ⟨hout, higl⟩ | ⟨op, hne, hop, hb⟩
  · exact iff_of_true higl hout
  · exact iff_of_false (hop ▸ hne) (not_not_intro (opcodeByte_mem hb))

/-- Under an injective map the lookup undoes `opcodeByte` (R92). -/
theorem opcodeOf_of_opcodeByte {m : OpcodeMap} (hm : m.wf) {op : Opcode} {b : Byte} (h : opcodeByte m op = some b) :
    opcodeOf m b = op := by
  rcases opcodeOf_cases m b with ⟨hout, -⟩ | ⟨p, -, hp, hb⟩
  · exact absurd (opcodeByte_mem h) hout
  · exact hp.trans (opcodeByte_injective hm hb h)

theorem opcodeOf_eq_iff_of_opcodeByte {m : OpcodeMap} (hm : m.wf) {op : Opcode} {b : Byte}
    (h : opcodeByte m op = some b) (c : Byte) : opcodeOf m c = op ↔ c = b := by
  constructor
  · rintro rfl
    have hne : opcodeOf m c ≠ .igl := fun higl => by rw [higl] at h; cases h
    exact Option.some.inj ((opcodeByte_opcodeOf hne).symm.trans h)
  · rintro rfl
    exact opcodeOf_of_opcodeByte hm h

/-! ### Operand bytes -/

/-- The bytes of an instruction after its opcode byte, in the layout of R82. -/
def Instr.operands : Instr → List Byte
  | .load r imm => [r, imm.extractLsb' 8 8, imm.extractLsb' 0 8]
  | .hlt => []
  | .add f1 f2 f3 => [f1, f2, f3]
  | .sub f1 f2 f3 => [f1, f2, f3]
  | .mul f1 f2 f3 => [f1, f2, f3]
  | .div f1 f2 f3 => [f1, f2, f3]
  | .jmp r => [r]
  | .jmpf r => [r]
  | .jmpb r => [r]
  | .eq s1 s2 pad => [s1, s2, pad]
  | .jeq r => [r]
  | .jneq r => [r]
  | .aloc r => [r]
  | .inc r => [r]
  | .dec r => [r]
  | .igl => []

theorem Instr.opcode_eq_igl_iff (i : Instr) : i.opcode = .igl ↔ i = .igl := by
  cases i <;> simp [Instr.opcode]

/-- The encoder writes the opcode's byte and then the operand bytes; it has nothing to write where the opcode has no
byte (R82, R85). -/
theorem encode_eq (m : OpcodeMap) (i : Instr) : encode m i = (opcodeByte m i.opcode).map (· :: i.operands) := by
  cases i <;> rfl

/-- The opcode byte and the operand bytes make up the opcode's length (R81). -/
theorem Instr.length_operands (i : Instr) : i.operands.length + 1 = opcodeLength i.opcode := by
  cases i <;> rfl

/-- Consumption by opcode reads exactly the operand bytes of an instruction of that opcode, and leaves what follows
(R124). -/
theorem consume_eq_ok_iff {op : Opcode} {bs rest : List Byte} {i : Instr} :
    consume op bs = .ok (i, rest) ↔ i.opcode = op ∧ bs = i.operands ++ rest := by
  constructor
  · intro h
    cases op with
    | load =>
      obtain ⟨r, hi, lo, rfl, rfl⟩ := consumeRI_ok h
      exact ⟨rfl, by simp only [Instr.operands, highByte_of_append, lowByte_of_append, List.cons_append, List.nil_append]⟩
    | hlt | igl =>
      cases h
      exact ⟨rfl, rfl⟩
    | add | sub | mul | div | eq =>
      obtain ⟨f1, f2, f3, rfl, rfl⟩ := consumeRRR_ok h
      exact ⟨rfl, rfl⟩
    | jmp | jmpf | jmpb | jeq | jneq | aloc | inc | dec =>
      obtain ⟨r, rfl, rfl⟩ := consumeR_ok h
      exact ⟨rfl, rfl⟩
  · rintro ⟨rfl, rfl⟩
    cases i with
    | load r imm =>
      have himm := highByte_append_lowByte imm
      exact congrArg (fun v => Except.ok (Instr.load r v, rest)) himm
    | _ => rfl

/-! ### The decoder -/

/-- What a successful decode says of the bytes: an opcode byte of the instruction's opcode, its operand bytes, and
the rest. -/
theorem decode_eq_ok_iff {m : OpcodeMap} {bs rest : List Byte} {i : Instr} :
    decode m bs = .ok (i, rest) ↔ ∃ b : Byte, bs = b :: (i.operands ++ rest) ∧ opcodeOf m b = i.opcode := by
  cases bs with
  | nil => simp [decode]
  | cons b bs =>
    rw [decode, consume_eq_ok_iff]
    constructor
    · rintro ⟨hop, rfl⟩
      exact ⟨b, rfl, hop.symm⟩
    · rintro ⟨c, hbs, hop⟩
      obtain ⟨rfl, rfl⟩ := List.cons.inj hbs
      exact ⟨hop.symm, rfl⟩

/-- Under an injective map an opcode's byte selects that opcode's operand consumption (R83, R124). -/
theorem decode_cons_of_opcodeByte {m : OpcodeMap} (hm : m.wf) {op : Opcode} {b : Byte} (h : opcodeByte m op = some b)
    (bs : List Byte) : decode m (b :: bs) = consume op bs := by
  rw [decode, opcodeOf_of_opcodeByte hm h]

/-- A byte outside the map is IGL, and takes no operands (R83). -/
theorem decode_cons_of_not_mem {m : OpcodeMap} {b : Byte} (h : b ∉ m.bytes) (bs : List Byte) :
    decode m (b :: bs) = .ok (.igl, bs) := by
  rw [decode, (opcodeOf_eq_igl_iff m b).2 h, consume]

end Sys2Proof

/-! The statements about the wire format: encoder and decoder, the opcode bytes, the lengths (30_encoding.md sections
1 to 3). -/

namespace Sys2Proof

/-! ### Encoder and decoder -/

/-- Settles O1: the encoder writes opcode byte and operand bytes (`encode_eq`), and the decoder reads exactly these
(`decode_eq_ok_iff`), since an injective map gives the opcode byte back its opcode. -/
theorem decodeEncodeRoundTrip : Obligations.DecodeEncodeRoundTrip := by
  intro m hm i
  refine ⟨fun higl => by rw [higl, encode], fun hne => ?_⟩
  obtain ⟨b, hb⟩ := exists_opcodeByte (mt i.opcode_eq_igl_iff.1 hne) m
  refine ⟨b :: i.operands, by rw [encode_eq, hb, Option.map_some], i.length_operands, fun rest => ?_⟩
  exact decode_eq_ok_iff.2 ⟨b, rfl, opcodeOf_of_opcodeByte hm hb⟩

/-- Settles O2: the decoder's input is the opcode byte, the operand bytes and the rest (`decode_eq_ok_iff`); the opcode
byte is the one the encoder writes, or for IGL one outside the map. -/
theorem encodeDecodeRoundTrip : Obligations.EncodeDecodeRoundTrip := by
  intro m bs rest i h
  obtain ⟨b, rfl, hop⟩ := decode_eq_ok_iff.1 h
  constructor
  · intro hne
    have hb : opcodeByte m i.opcode = some b :=
      hop ▸ opcodeByte_opcodeOf (hop ▸ mt i.opcode_eq_igl_iff.1 hne)
    exact ⟨b :: i.operands, by rw [encode_eq, hb, Option.map_some], rfl⟩
  · rintro rfl
    exact ⟨b, rfl, (opcodeOf_eq_igl_iff m b).1 hop⟩

/-- Settles O6: the table of lengths opcode by opcode, and what a decode consumes (`decode_eq_ok_iff`) against the
length of the operand bytes. -/
theorem instructionLengths : Obligations.InstructionLengths := by
  refine ⟨fun op => by cases op <;> rfl, fun m b bs rest i h => ?_⟩
  obtain ⟨c, hbs, hop⟩ := decode_eq_ok_iff.1 h
  obtain ⟨rfl, rfl⟩ := List.cons.inj hbs
  rw [hop, ← i.length_operands, List.length_cons, List.length_append]
  omega

/-! ### Opcode bytes -/

/-- Settles O3: the lookup undoes `opcodeByte` under an injective map (`opcodeOf_of_opcodeByte`). -/
theorem opcodeByteRoundTrip : Obligations.OpcodeByteRoundTrip := by
  refine fun m hm => ⟨rfl, rfl, fun op hne => ?_⟩
  obtain ⟨b, hb⟩ := exists_opcodeByte hne m
  exact ⟨b, hb, opcodeOf_of_opcodeByte hm hb⟩

/-- Settles O4: a real opcode is looked up from its own byte alone (`opcodeOf_eq_iff_of_opcodeByte`), IGL from the bytes
outside the map, where decoding succeeds and leaves the stop to the execution. -/
theorem opcodeDecodeTotal : Obligations.OpcodeDecodeTotal := by
  refine fun m hm => ⟨fun op hne => ?_, opcodeOf_eq_igl_iff m, fun b rest hout => decode_cons_of_not_mem hout rest,
    fun s => ⟨s.stopAfterOpcode .illegalOpcode, rfl, (s.advance 1).setCode_code .illegalOpcode⟩⟩
  obtain ⟨b, hb⟩ := exists_opcodeByte hne m
  exact ⟨b, opcodeOf_eq_iff_of_opcodeByte hm hb⟩

/-! ### The default map -/

theorem OpcodeMap.default_wf : OpcodeMap.default.wf := by decide

/-- The default map uses the bytes below 0x0F (R84). -/
theorem not_mem_default_bytes {b : Byte} (h : 0x0F#8 ≤ b) : b ∉ OpcodeMap.default.bytes := by
  have below : ∀ c ∈ OpcodeMap.default.bytes, c < 0x0F#8 := by decide
  exact fun hmem => absurd h (BitVec.not_le.2 (below b hmem))

/-- Settles O5: the fifteen rows by evaluation, the bytes from 0x0F up as bytes outside the map. -/
theorem defaultOpcodeTable : Obligations.DefaultOpcodeTable :=
  ⟨by decide, fun b hb => ⟨(opcodeOf_eq_igl_iff _ b).2 (not_mem_default_bytes hb), rfl⟩⟩

/-- Settles O7: each word's first byte is an opcode's byte in the default map, or 0x80, which is outside it. -/
theorem writtenWordsDecode : Obligations.WrittenWordsDecode := by
  have reads : ∀ (op : Opcode) (b : Byte), opcodeByte OpcodeMap.default op = some b → ∀ bs : List Byte,
      decode OpcodeMap.default (b :: bs) = consume op bs :=
    fun _ _ => decode_cons_of_opcodeByte OpcodeMap.default_wf
  exact ⟨reads .load _ rfl _, reads .hlt _ rfl _, reads .div _ rfl _, reads .jmpb _ rfl _, reads .eq _ rfl _,
    reads .aloc _ rfl _, decode_cons_of_not_mem (not_mem_default_bytes (by decide)) []⟩

end Sys2Proof

/-! The statements about the assembler: the bytes of a line, how they read back and how the unit reads them, and the
typed errors (30_encoding.md section 6). -/

namespace Sys2Proof.Assembler

/-! ### The bytes of a line -/

/-- The bytes of a line are the opcode byte, the register byte and the low half of the integer, high byte first
(R98). -/
theorem toBytes_line {m : OpcodeMap} {l : Line} {b : Byte} (h : opcodeByte m l.op = some b) :
    toBytes m l.instruction =
      .ok [b, BitVec.ofNat 8 l.reg.val, l.int.extractLsb' 8 8, l.int.extractLsb' 0 8] := by
  simp only [toBytes, Line.instruction, opcodeBytes, h]
  rfl

/-- The two bytes of an integer operand hold its value modulo 2^16 (R98). -/
theorem integerBytes_value (v : Word) :
    ((v.extractLsb' 8 8).toNat * 256 + (v.extractLsb' 0 8).toNat : Int) = v.toInt % 65536 := by
  have hhigh : (v.extractLsb' 8 8).toNat = v.toNat / 256 % 256 := by
    rw [BitVec.extractLsb'_toNat, Nat.shiftRight_eq_div_pow]
  have hlow : (v.extractLsb' 0 8).toNat = v.toNat % 256 := BitVec.extractLsb'_toNat 0 8 v
  have hint := BitVec.toInt_eq_toNat_cond v
  split at hint <;> omega

theorem toNat_append_bytes (hi lo : Byte) : (hi ++ lo).toNat = hi.toNat * 256 + lo.toNat := by
  rw [BitVec.toNat_append, ← Nat.shiftLeft_add_eq_or_of_lt lo.isLt, Nat.shiftLeft_eq]

/-- Settles O56: the four bytes of the line (`toBytes_line`), the last two of the integer's value modulo 2^16. -/
theorem assembledLineBytes : Obligations.AssembledLineBytes :=
  fun _ l _ hb => ⟨l.int.extractLsb' 8 8, l.int.extractLsb' 0 8, toBytes_line hb, integerBytes_value l.int⟩

/-! ### Lines read back -/

/-- No mnemonic names IGL (R94). -/
theorem opcodeNamed_ne_igl {cs : List Char} {op : Opcode} (h : opcodeNamed cs = some op) : op ≠ .igl := by
  obtain ⟨before, after, hsplit, -⟩ := List.lookup_eq_some_iff.1 h
  have hmem : (cs, op) ∈ mnemonics := by simp [hsplit]
  have hreal : ∀ row ∈ mnemonics, row.2 ≠ .igl := by decide
  exact hreal _ hmem

/-- The opcode of a parsed line is the one its first word names (R93, R94). -/
theorem opcodeNamed_of_parseLine {text rest : List Char} {l : Line} (h : parseLine text = some (l, rest)) :
    opcodeNamed (takeWord text).1 = some l.op := by
  simp only [parseLine, Option.bind_eq_bind, Option.bind_eq_some_iff] at h
  obtain ⟨op, hop, _, -, ⟨reg, _⟩, -, _, -, ⟨int, _⟩, -, _, -, hl⟩ := h
  cases hl
  exact hop

/-- Settles O57: a parsed line has a real opcode (`opcodeNamed_ne_igl`), so it has its four bytes, and under an
injective map the first gives the opcode back. -/
theorem assembledLineRoundTrip : Obligations.AssembledLineRoundTrip := by
  intro m hm text rest l hparse
  obtain ⟨b, hb⟩ := exists_opcodeByte (opcodeNamed_ne_igl (opcodeNamed_of_parseLine hparse)) m
  refine ⟨_, toBytes_line hb, l.int.extractLsb' 8 8 ++ l.int.extractLsb' 0 8, ?_, ?_⟩
  · rw [readLine, opcodeOf_of_opcodeByte hm hb]
  · rw [toNat_append_bytes]
    exact integerBytes_value l.int

/-! ### Lines as the unit reads them -/

/-- Settles O58: the first byte selects its opcode's consumption (`decode_cons_of_opcodeByte`), which takes three, one
or none of the bytes r, hi, lo. -/
theorem assembledLineAsExecuted : Obligations.AssembledLineAsExecuted := by
  intro m hm r hi lo
  have reads : ∀ (op : Opcode) (b : Byte), opcodeByte m op = some b → decode m [b, r, hi, lo] = consume op [r, hi, lo] :=
    fun _ _ hb => decode_cons_of_opcodeByte hm hb [r, hi, lo]
  exact ⟨reads .load _ rfl, reads .hlt _ rfl, reads .add _ rfl, reads .sub _ rfl, reads .mul _ rfl, reads .div _ rfl,
    reads .eq _ rfl, reads .jmp _ rfl, reads .jmpf _ rfl, reads .jmpb _ rfl, reads .jeq _ rfl, reads .jneq _ rfl,
    reads .aloc _ rfl, reads .inc _ rfl, reads .dec _ rfl⟩

/-! ### Typed errors -/

/-- Everything an operand can give: a typed error exactly for an `Op` token, else at most two bytes (R98, R99). -/
theorem operandBytes_cases (o : Option Token) :
    ((∃ p : Opcode, o = some (.op p)) ∧ operandBytes o = .error .operandIsOp) ∨
      ((∀ p : Opcode, o ≠ some (.op p)) ∧ ∃ bs : List Byte, operandBytes o = .ok bs ∧ bs.length ≤ 2) := by
  cases o with
  | none => exact .inr ⟨nofun, [], rfl, by decide⟩
  | some tok =>
    cases tok with
    | op p => exact .inl ⟨⟨p, rfl⟩, rfl⟩
    | register i => exact .inr ⟨nofun, _, rfl, by simp⟩
    | integer v => exact .inr ⟨nofun, _, rfl, by simp⟩

theorem opcodeBytes_of_not_op (m : OpcodeMap) {tok : Token} (h : ∀ o : Opcode, tok ≠ .op o) :
    opcodeBytes m tok = .error .opcodeNotOp := by
  cases tok with
  | op o => exact absurd rfl (h o)
  | register i => rfl
  | integer v => rfl

theorem opcodeBytes_of_opcodeByte {m : OpcodeMap} {o : Opcode} {b : Byte} (h : opcodeByte m o = some b) :
    opcodeBytes m (.op o) = .ok [b] := by
  rw [opcodeBytes, h]

/-- An error of the opcode field is the answer, whatever the operands are. -/
theorem toBytes_of_opcode_error {m : OpcodeMap} {i : AssemblerInstruction} {e : AsmError}
    (h : opcodeBytes m i.opcode = .error e) : toBytes m i = .error e := by
  rw [toBytes, h]
  rfl

/-- With an opcode byte, the operands decide: a typed error if one of them is an `Op` token, else bytes (R98, R99). -/
theorem toBytes_cases {m : OpcodeMap} {i : AssemblerInstruction} {b : Byte} (h : opcodeBytes m i.opcode = .ok [b]) :
    ((∃ p : Opcode, some (Token.op p) ∈ [i.operand1, i.operand2, i.operand3]) ∧
        toBytes m i = .error .operandIsOp) ∨
      ((¬∃ p : Opcode, some (Token.op p) ∈ [i.operand1, i.operand2, i.operand3]) ∧
        ∃ bs : List Byte, toBytes m i = .ok bs ∧ bs.length ≤ 7) := by
  rcases operandBytes_cases i.operand1 with ⟨⟨p, hp⟩, e1⟩ | ⟨n1, bs1, e1, l1⟩
  · exact .inl ⟨⟨p, by simp [hp]⟩, by rw [toBytes, h, e1]; rfl⟩
  rcases operandBytes_cases i.operand2 with ⟨⟨p, hp⟩, e2⟩ | ⟨n2, bs2, e2, l2⟩
  · exact .inl ⟨⟨p, by simp [hp]⟩, by rw [toBytes, h, e1, e2]; rfl⟩
  rcases operandBytes_cases i.operand3 with ⟨⟨p, hp⟩, e3⟩ | ⟨n3, bs3, e3, l3⟩
  · exact .inl ⟨⟨p, by simp [hp]⟩, by rw [toBytes, h, e1, e2, e3]; rfl⟩
  refine .inr ⟨?_, [b] ++ bs1 ++ bs2 ++ bs3, by rw [toBytes, h, e1, e2, e3]; rfl, ?_⟩
  · simp only [List.mem_cons, List.not_mem_nil, or_false]
    rintro ⟨p, hp | hp | hp⟩
    · exact n1 p hp.symm
    · exact n2 p hp.symm
    · exact n3 p hp.symm
  · simp only [List.length_append, List.length_singleton]
    omega

/-- Settles O59: the opcode field answers first (`toBytes_of_opcode_error`); with a real opcode, which has a byte, the
operands decide (`toBytes_cases`). -/
theorem assemblerTypedErrors : Obligations.AssemblerTypedErrors := by
  intro m i
  refine ⟨fun hnot => toBytes_of_opcode_error (opcodeBytes_of_not_op m hnot),
    fun higl => toBytes_of_opcode_error (by rw [higl]; rfl), fun o ho hne => ?_⟩
  obtain ⟨b, hb⟩ := exists_opcodeByte hne m
  have hbytes : opcodeBytes m i.opcode = .ok [b] := by rw [ho, opcodeBytes_of_opcodeByte hb]
  rcases toBytes_cases hbytes with ⟨hsome, herr⟩ | ⟨hnone, hok⟩
  · exact ⟨fun _ => herr, fun hnone => absurd hsome hnone⟩
  · exact ⟨fun hsome => absurd hsome hnone, fun _ => hok⟩

end Sys2Proof.Assembler

/-! SUPPORT. The step in each of its cases, as an equation, and the code an instruction and a step leave
(40_cycle.md). -/

namespace Sys2Proof.Machine

/-! ### The step, case by case -/

theorem State.sticky_eq_true_iff (s : State) : s.sticky = true ↔ s.code ≠ 0#4 ∧ s.code ≠ 2#4 := by
  rw [← Bool.not_eq_false, State.sticky_eq_false_iff, not_or]

theorem step_of_sticky {s : State} (hs : s.sticky = true) : step s = .next s := by
  rw [step, cycle, if_pos hs]

theorem step_at_end {s : State} (hs : s.sticky = false) (hend : s.prog.len ≤ s.pc.toNat) :
    step s = .next s.stopAtEnd := by
  simp only [step, cycle, hs, State.atEnd, hend, decide_true, if_true, Bool.false_eq_true, if_false]

/-- Inside the program the fetch decides: its instruction runs with status RUNNING (R122), or the step raises
TRUNCATED (R125). -/
theorem step_inside {s : State} (hs : s.sticky = false) (hpc : s.pc.toNat < s.prog.len) :
    (∃ i : Instr, s.fetch = .ok i ∧ step s = exec i (s.setCode .running)) ∨
      (∃ e : DecodeError, s.fetch = .error e ∧ step s = raised .truncated s) := by
  have hend : s.atEnd = false := decide_eq_false (Nat.not_le.2 hpc)
  cases hf : s.fetch with
  | ok i => exact .inl ⟨i, rfl, by simp [step, cycle, hs, hend, hf]⟩
  | error e => exact .inr ⟨e, rfl, by simp [step, cycle, hs, hend, hf]⟩

theorem step_of_fetch {s : State} {i : Instr} (hs : s.sticky = false) (hpc : s.pc.toNat < s.prog.len)
    (hf : s.fetch = .ok i) : step s = exec i (s.setCode .running) := by
  rcases step_inside hs hpc with ⟨j, hj, he⟩ | ⟨e, hj, -⟩ <;> cases hf.symm.trans hj
  exact he

theorem step_of_short {s : State} (hs : s.sticky = false) (hpc : s.pc.toNat < s.prog.len)
    (hshort : s.prog.len < s.pc.toNat + opcodeLength (opcodeAtPc s)) : step s = raised .truncated s := by
  rcases step_inside hs hpc with ⟨i, hi, -⟩ | ⟨e, -, he⟩
  · cases (fetch_of_short hpc hshort).symm.trans hi
  · exact he

theorem opcodeLength_pos (op : Opcode) : 0 < opcodeLength op := by cases op <;> decide

theorem step_of_whole {s : State} (hs : s.sticky = false)
    (hwhole : s.pc.toNat + opcodeLength (opcodeAtPc s) ≤ s.prog.len) :
    step s = exec (instrAtPc s) (s.setCode .running) :=
  step_of_fetch hs (by have := opcodeLength_pos (opcodeAtPc s); omega) (fetch_of_whole hwhole)

/-- END_OF_PROGRAM holds the unit no more than RUNNING does: the step reads the code only to see whether it is
sticky. -/
theorem step_setCode_running {s : State} (hs : s.sticky = false) : step (s.setCode .running) = step s := by
  have hs' : (s.setCode .running).sticky = false := (State.sticky_eq_false_iff _).2 (.inl (State.setCode_code _ _))
  by_cases hend : s.prog.len ≤ s.pc.toNat
  · rw [step_at_end hs hend, step_at_end hs' hend]
    rfl
  · have hpc : s.pc.toNat < s.prog.len := Nat.lt_of_not_le hend
    rcases step_inside hs hpc with ⟨i, hf, he⟩ | ⟨e, hf, he⟩ <;>
      rcases step_inside hs' hpc with ⟨j, hf', he'⟩ | ⟨e', hf', he'⟩ <;>
      cases hf.symm.trans hf' <;> rw [he, he'] <;> rfl

/-- At an opcode without operands, the opcode byte is the whole instruction. -/
theorem step_of_no_operands {s : State} (hs : s.sticky = false) (hpc : s.pc.toNat < s.prog.len)
    (hlen : opcodeLength (opcodeAtPc s) = 1) : step s = exec (instrAtPc s) (s.setCode .running) :=
  step_of_whole hs (by omega)

theorem instrAtPc_of_hlt {s : State} (h : opcodeAtPc s = .hlt) : instrAtPc s = .hlt := by rw [instrAtPc, h]

theorem instrAtPc_of_igl {s : State} (h : opcodeAtPc s = .igl) : instrAtPc s = .igl := by rw [instrAtPc, h]

/-! ### Register fields -/

/-- One checked field above 31 is enough, in whatever position (R126). -/
theorem exec_of_illegal_field {i : Instr} {s : State} (h : ∃ b ∈ i.regFields, 31 < b.toNat) :
    exec i s = raised .regIndex s := by
  cases i with
  | hlt | igl => simp [Instr.regFields] at h
  | add f1 f2 f3 | sub f1 f2 f3 | mul f1 f2 f3 | div f1 f2 f3 =>
    exact withReg3_of_illegal (by simpa [Instr.regFields] using h) s _
  | eq s1 s2 pad => exact withReg2_of_illegal (by simpa [Instr.regFields] using h) s _
  | load r imm => exact withReg_of_illegal (by simpa [Instr.regFields] using h) s _
  | jmp r | jmpf r | jmpb r | jeq r | jneq r | aloc r | inc r | dec r =>
    exact withReg_of_illegal (by simpa [Instr.regFields] using h) s _

/-! ### The faults an instruction can raise -/

/-- The faults `i` may raise: REG_INDEX for one of its checked fields, or a fault of its own operation, which are the
codes from 6 on (R241, R242). -/
def Action.FaultsWithin (i : Instr) : Action → Prop
  | .fault c => (c = .regIndex ∧ ∃ b ∈ i.regFields, 31 < b.toNat) ∨ 6 ≤ (stopBits c).toNat
  | _ => True

theorem Action.faultsWithin_operation {i : Instr} {c : StopCode} (h : 6 ≤ (stopBits c).toNat) :
    (Action.fault c).FaultsWithin i := .inr h

theorem Action.faultsWithin_checkReg {i : Instr} {b : Byte} {k : Fin 32 → Action} (hb : b ∈ i.regFields)
    (h : ∀ j : Fin 32, (k j).FaultsWithin i) : (checkReg b k).FaultsWithin i := by
  rcases index_or_illegal b with ⟨j, hj⟩ | hill
  · rw [checkReg_of_index hj]
    exact h j
  · rw [checkReg_of_illegal hill]
    exact .inl ⟨rfl, b, hb, hill⟩

theorem Action.faultsWithin_commit (i : Instr) (mode : ArithOverflow) (d : Fin 32) (e : Int) (n : Nat) :
    (commit mode d e n).FaultsWithin i := by
  unfold commit
  cases arithResult mode e with
  | some v => trivial
  | none => exact faultsWithin_operation (by decide)

theorem Action.faultsWithin_binary {i : Instr} (op : Int → Int → Int) {f1 f2 f3 : Byte} (s : State)
    (hi : i.regFields = [f1, f2, f3]) : (binary op f1 f2 f3 s).FaultsWithin i :=
  faultsWithin_checkReg (by simp [hi]) fun _ => faultsWithin_checkReg (by simp [hi]) fun _ =>
    faultsWithin_checkReg (by simp [hi]) fun _ => faultsWithin_commit i _ _ _ _

theorem Action.faultsWithin_quotient (i : Instr) (d : Fin 32) (n1 n2 : Int) : (quotient d n1 n2).FaultsWithin i := by
  unfold quotient
  split
  · exact faultsWithin_operation (by decide)
  · split
    · exact faultsWithin_operation (by decide)
    · trivial

theorem Action.faultsWithin_allocate (i : Instr) (k : Int) (s : State) : (allocate k s).FaultsWithin i := by
  unfold allocate
  split
  · exact faultsWithin_operation (by decide)
  · split
    · exact faultsWithin_operation (by decide)
    · trivial

theorem Action.faultsWithin_stepBy {i : Instr} (delta : Int) {r : Byte} (s : State) (hr : r ∈ i.regFields) :
    (stepBy delta r s).FaultsWithin i := faultsWithin_checkReg hr fun _ => faultsWithin_commit i _ _ _ _

theorem Action.faultsWithin_jumpIf {i : Instr} (taken : Bool) {r : Byte} (s : State) (hr : r ∈ i.regFields) :
    (jumpIf taken r s).FaultsWithin i := faultsWithin_checkReg hr fun _ => by cases taken <;> trivial

/-- No instruction raises any other fault; TRUNCATED is the step's alone. -/
theorem action_faultsWithin (i : Instr) (s : State) : (action i s).FaultsWithin i := by
  cases i with
  | load r imm => exact Action.faultsWithin_checkReg (List.mem_singleton_self r) fun _ => trivial
  | hlt | igl => trivial
  | add f1 f2 f3 | sub f1 f2 f3 | mul f1 f2 f3 => exact Action.faultsWithin_binary _ s rfl
  | div f1 f2 f3 =>
    exact Action.faultsWithin_checkReg (by simp [Instr.regFields]) fun _ =>
      Action.faultsWithin_checkReg (by simp [Instr.regFields]) fun _ =>
        Action.faultsWithin_checkReg (by simp [Instr.regFields]) fun _ => Action.faultsWithin_quotient _ _ _ _
  | jmp r | jeq r | jneq r => exact Action.faultsWithin_jumpIf _ s (List.mem_singleton_self r)
  | jmpf r | jmpb r =>
    refine Action.faultsWithin_checkReg (List.mem_singleton_self r) fun _ => ?_
    split
    · exact Action.faultsWithin_operation (by decide)
    · trivial
  | eq s1 s2 pad =>
    exact Action.faultsWithin_checkReg (by simp [Instr.regFields]) fun _ =>
      Action.faultsWithin_checkReg (by simp [Instr.regFields]) fun _ => trivial
  | aloc r =>
    exact Action.faultsWithin_checkReg (List.mem_singleton_self r) fun _ => Action.faultsWithin_allocate _ _ s
  | inc r | dec r => exact Action.faultsWithin_stepBy _ s (List.mem_singleton_self r)

/-! ### The code after an instruction and after a step -/

theorem stopBits_le (c : StopCode) : (stopBits c).toNat ≤ 12 := by cases c <;> decide

/-- Everything the code after an instruction can be. -/
theorem exec_code_cases {i : Instr} {s t : State} (h : exec i s = .next t) :
    (i = .hlt ∧ t.code = 1#4) ∨ (i = .igl ∧ t.code = 3#4) ∨
      (i ≠ .hlt ∧ i ≠ .igl ∧ (t.code = s.code ∨ (t.code = 5#4 ∧ ∃ b ∈ i.regFields, 31 < b.toNat) ∨
        (6 ≤ t.code.toNat ∧ t.code.toNat ≤ 12))) := by
  by_cases hhlt : i = .hlt
  · subst hhlt
    cases h
    exact .inl ⟨rfl, State.setCode_code _ _⟩
  by_cases higl : i = .igl
  · subst higl
    cases h
    exact .inr (.inl ⟨rfl, State.setCode_code _ _⟩)
  refine .inr (.inr ⟨hhlt, higl, ?_⟩)
  rw [eq_perform_of_exec h]
  rcases Action.perform_code (action_fits i s) with ⟨c, ha, -⟩ | ⟨hi, -⟩ | ⟨hi, -⟩ | hstatus
  · have hf := action_faultsWithin i s
    rw [ha] at hf ⊢
    rw [Action.perform, State.raise_code]
    rcases hf with ⟨rfl, hill⟩ | hop
    · exact .inr (.inl ⟨rfl, hill⟩)
    · exact .inr (.inr ⟨hop, stopBits_le c⟩)
  · exact absurd hi hhlt
  · exact absurd hi higl
  · exact .inl (by rw [State.code, hstatus, State.code])

/-- Everything the code after a step from a state that may step can be. -/
theorem step_code_cases {s t : State} (hs : s.sticky = false) (h : step s = .next t) :
    (s.prog.len ≤ s.pc.toNat ∧ t.code = 2#4) ∨
      (s.pc.toNat < s.prog.len ∧ opcodeAtPc s = .hlt ∧ t.code = 1#4) ∨
      (s.pc.toNat < s.prog.len ∧ opcodeAtPc s = .igl ∧ t.code = 3#4) ∨
      (s.pc.toNat < s.prog.len ∧ opcodeAtPc s ≠ .hlt ∧ opcodeAtPc s ≠ .igl ∧
        s.prog.len < s.pc.toNat + opcodeLength (opcodeAtPc s) ∧ t = s.raise .truncated) ∨
      (s.pc.toNat + opcodeLength (opcodeAtPc s) ≤ s.prog.len ∧ opcodeAtPc s ≠ .hlt ∧ opcodeAtPc s ≠ .igl ∧
        (t.code = 0#4 ∨ (5 ≤ t.code.toNat ∧ t.code.toNat ≤ 12))) := by
  rcases step_cases s with ⟨hsticky, -⟩ | ⟨-, hend, he⟩ | ⟨-, hpc, hshort, he⟩ | ⟨-, hwhole, he⟩
  · rw [hs] at hsticky
    cases hsticky
  · cases he.symm.trans h
    exact .inl ⟨hend, State.setCode_code _ _⟩
  · cases he.symm.trans h
    have hne : ∀ op : Opcode, opcodeLength op = 1 → opcodeAtPc s ≠ op := by
      rintro op hlen rfl
      omega
    exact .inr (.inr (.inr (.inl ⟨hpc, hne .hlt rfl, hne .igl rfl, hshort, rfl⟩)))
  · have hpc : s.pc.toNat < s.prog.len := by
      have := opcodeLength_pos (opcodeAtPc s)
      omega
    rw [he] at h
    rcases exec_code_cases h with ⟨hi, hc⟩ | ⟨hi, hc⟩ | ⟨hhlt, higl, hc⟩
    · exact .inr (.inl ⟨hpc, by rw [← instrAtPc_opcode, hi, Instr.opcode], hc⟩)
    · exact .inr (.inr (.inl ⟨hpc, by rw [← instrAtPc_opcode, hi, Instr.opcode], hc⟩))
    · refine .inr (.inr (.inr (.inr ⟨hwhole, mt instrAtPc_of_hlt hhlt, mt instrAtPc_of_igl higl, ?_⟩)))
      rcases hc with hc | ⟨hc, -⟩ | ⟨hlow, hhigh⟩
      · exact .inl (hc.trans (State.setCode_code s .running))
      · exact .inr (by rw [hc]; decide)
      · exact .inr ⟨by omega, hhigh⟩

end Sys2Proof.Machine

/-! SUPPORT. A table word placed where the step fetches (log entry 9). -/

namespace Sys2Proof.Machine

/-- Placed bytes read back. -/
theorem Memory.read_placeAll {m : Memory} (h : m.wf) (a : Nat) (bs : List Byte) {k : Nat} (hk : k < bs.length) :
    (m.placeAll a bs).read (a + k) = bs[k]? := by
  have hlen : a + bs.length ≤ (m.placeAll a bs).len := (m.placeAll_len a bs).2 (List.ne_nil_of_length_pos (by omega))
  rw [Memory.read_of_lt (by omega), Memory.cellsRead_placeAll h, if_pos (Nat.le_add_right a k), Nat.add_sub_cancel_left,
    List.getElem?_eq_getElem hk, Option.getD_some]

/-- Placing bytes leaves every other address as it was. -/
theorem Memory.cellsRead_placeAll_outside {m : Memory} (h : m.wf) (a : Nat) (bs : List Byte) {x : Nat}
    (hx : x < a ∨ a + bs.length ≤ x) : cellsRead (m.placeAll a bs).cells x = cellsRead m.cells x := by
  rw [Memory.cellsRead_placeAll h]
  split
  · rw [List.getElem?_eq_none (by omega), Option.getD_none]
  · rfl

theorem tableBytes_length (nbits w : Nat) : (tableBytes nbits w).length = 4 := by
  rw [tableBytes, List.length_map, List.length_range, maxLength]

theorem decode_of_decodeTableWord {nbits w : Nat} {i : Instr} (h : decodeTableWord nbits w = some i) :
    ∃ rest : List Byte, decode OpcodeMap.default (tableBytes nbits w) = .ok (i, rest) := by
  unfold decodeTableWord at h
  split at h
  · rename_i j rest hd
    cases h
    exact ⟨rest, hd⟩
  · cases h

/-- The fetch reads four bytes that exist at pc. -/
theorem fetchBytes_of_read {s : State} {bs : List Byte} (hlen : bs.length = 4)
    (h : ∀ k : Nat, k < 4 → s.prog.read (s.pc.toNat + k) = bs[k]?) : s.fetchBytes = bs := by
  obtain ⟨b0, b1, b2, b3, rfl⟩ : ∃ b0 b1 b2 b3 : Byte, bs = [b0, b1, b2, b3] := by
    match bs, hlen with
    | [b0, b1, b2, b3], _ => exact ⟨b0, b1, b2, b3, rfl⟩
  have hr : List.range maxLength = [0, 1, 2, 3] := by decide
  rw [State.fetchBytes, hr, filterMap_four, h 0 (by decide), h 1 (by decide), h 2 (by decide), h 3 (by decide)]
  rfl

/-- The program store with a table word at pc. -/
def State.fetchWordProg (s : State) (nbits w : Nat) : Memory := s.prog.placeAll s.pc.toNat (tableBytes nbits w)

theorem State.withFetchWord_of_not_sticky {s : State} (hs : s.sticky = false) (nbits w : Nat) :
    s.withFetchWord nbits w = { s with prog := s.fetchWordProg nbits w } := by
  rw [State.withFetchWord, State.placeFetchWord, State.unstuck, hs]
  rfl

theorem State.withFetchWord_of_sticky {s : State} (hs : s.sticky = true) (nbits w : Nat) :
    s.withFetchWord nbits w = { s with prog := s.fetchWordProg nbits w, status := 0x00#8 } := by
  rw [State.withFetchWord, State.placeFetchWord, State.unstuck, hs]
  rfl

/-- Placing a table word frees the unit to step. -/
theorem State.withFetchWord_not_sticky (s : State) (nbits w : Nat) : (s.withFetchWord nbits w).sticky = false := by
  cases hs : s.sticky with
  | false =>
    rw [withFetchWord_of_not_sticky hs]
    exact hs
  | true =>
    rw [withFetchWord_of_sticky hs]
    exact (sticky_eq_false_iff _).2 (.inl (code_of_status_zero rfl))

@[simp] theorem State.withFetchWord_pc (s : State) (nbits w : Nat) : (s.withFetchWord nbits w).pc = s.pc := by
  cases hs : s.sticky with
  | false => rw [withFetchWord_of_not_sticky hs]
  | true => rw [withFetchWord_of_sticky hs]

@[simp] theorem State.withFetchWord_build (s : State) (nbits w : Nat) :
    (s.withFetchWord nbits w).build = s.build := by
  cases hs : s.sticky with
  | false => rw [withFetchWord_of_not_sticky hs]
  | true => rw [withFetchWord_of_sticky hs]

@[simp] theorem State.withFetchWord_prog (s : State) (nbits w : Nat) :
    (s.withFetchWord nbits w).prog = s.fetchWordProg nbits w := rfl

/-- From RUNNING on, the placed word is all that is new. -/
theorem State.withFetchWord_running (s : State) (nbits w : Nat) :
    { s.withFetchWord nbits w with status := 0x00#8 } =
      { s with prog := s.fetchWordProg nbits w, status := 0x00#8 } := by
  cases hs : s.sticky with
  | false => rw [withFetchWord_of_not_sticky hs]
  | true => rw [withFetchWord_of_sticky hs]

end Sys2Proof.Machine

/-! The statements about the cycle: fetch, checks, dispatch and stops of one step (40_cycle.md). -/

namespace Sys2Proof.Machine

/-- Settles O8: the fetch is the decoder on the bytes at pc, and its instruction runs (`step_of_fetch`). -/
theorem stepRunsDecodedInstruction : Obligations.StepRunsDecodedInstruction := by
  intro s i rest hs hpc hdecode
  exact step_of_fetch hs hpc (by rw [State.fetch, hdecode])

/-- Settles O9: each branch of the pseudocode is one of the equations of the step, and for REG_INDEX
`exec_of_illegal_field`. -/
theorem stepIsThePseudocode : Obligations.StepIsThePseudocode := by
  intro s
  constructor
  · obtain ⟨t, ht⟩ := exists_step_eq_next s
    exact ⟨t, (serveStep_eq_some_iff s t _).2 ⟨ht, rfl⟩⟩
  by_cases hsticky : s.code ≠ 0#4 ∧ s.code ≠ 2#4
  · rw [if_pos hsticky]
    exact step_of_sticky ((State.sticky_eq_true_iff s).2 hsticky)
  rw [if_neg hsticky]
  have hs : s.sticky = false := by rwa [← State.sticky_eq_true_iff, Bool.not_eq_true] at hsticky
  by_cases hend : s.prog.len ≤ s.pc.toNat
  · rw [if_pos hend]
    exact step_at_end hs hend
  rw [if_neg hend]
  have hpc : s.pc.toNat < s.prog.len := Nat.lt_of_not_le hend
  by_cases hhlt : opcodeAtPc s = .hlt
  · rw [if_pos hhlt, step_of_no_operands hs hpc (by rw [hhlt]; rfl), instrAtPc_of_hlt hhlt]
    rfl
  rw [if_neg hhlt]
  by_cases higl : opcodeAtPc s = .igl
  · rw [if_pos higl, step_of_no_operands hs hpc (by rw [higl]; rfl), instrAtPc_of_igl higl]
    rfl
  rw [if_neg higl]
  by_cases hshort : s.prog.len < s.pc.toNat + opcodeLength (opcodeAtPc s)
  · rw [if_pos hshort]
    exact step_of_short hs hpc hshort
  rw [if_neg hshort, step_of_whole hs (Nat.le_of_not_lt hshort)]
  by_cases hill : (instrAtPc s).regFields.any (fun b => 31 < b.toNat)
  · obtain ⟨b, hb, hgt⟩ := List.any_eq_true.1 hill
    rw [if_pos hill, exec_of_illegal_field ⟨b, hb, of_decide_eq_true hgt⟩]
    rfl
  · rw [if_neg hill]
    rfl

/-- Settles O10: the codes named are the sticky ones, and from the two others the step does not read the code
(`step_setCode_running`). -/
theorem stickyStopChangesNothing : Obligations.StickyStopChangesNothing := by
  intro s
  constructor
  · intro hcode
    obtain ⟨h0, h2⟩ : s.code ≠ 0#4 ∧ s.code ≠ 2#4 := by
      constructor <;> bv_omega
    have hstep : step s = .next s := step_of_sticky ((State.sticky_eq_true_iff s).2 ⟨h0, h2⟩)
    exact ⟨hstep, (serveStep_eq_some_iff s s _).2 ⟨hstep, (stepResponse_of_stop h0).symm⟩⟩
  · intro hcode
    exact (step_setCode_running ((State.sticky_eq_false_iff s).2 hcode)).symm

/-- Settles O11, by the step's equations at the end of the program and for a whole instruction. -/
theorem endOfProgramStop : Obligations.EndOfProgramStop := by
  intro s
  refine ⟨fun hs hend => (serveStep_eq_some_iff s _ _).2 ⟨step_at_end hs hend, rfl⟩, fun hcode hwhole => ?_⟩
  exact step_of_whole ((State.sticky_eq_false_iff s).2 (.inr hcode)) hwhole

/-- Settles O12: of the codes a step can leave (`step_code_cases`), 4 is that of a missing operand byte alone. -/
theorem truncatedFault : Obligations.TruncatedFault := by
  intro s t hs hpc h
  have other {p : Prop} (hne : t.code ≠ 4#4) (hp : ¬p) :
      (t.code = 4#4 ↔ p) ∧ (t.code = 4#4 → t = { s with status := 0x04#8 }) :=
    ⟨iff_of_false hne hp, fun h4 => absurd h4 hne⟩
  rcases step_code_cases hs h with ⟨hend, -⟩ | ⟨-, hop, hc⟩ | ⟨-, hop, hc⟩ | ⟨-, hhlt, higl, hshort, rfl⟩ |
    ⟨hwhole, -, -, hc⟩
  · exact absurd hend (Nat.not_le.2 hpc)
  · exact other (by rw [hc]; decide) fun ⟨hhlt, _⟩ => hhlt hop
  · exact other (by rw [hc]; decide) fun ⟨_, higl, _⟩ => higl hop
  · exact ⟨iff_of_true (State.raise_code s _) ⟨hhlt, higl, hshort⟩, fun _ => rfl⟩
  · exact other (by bv_omega) fun ⟨_, _, hshort⟩ => absurd hwhole (Nat.not_le.2 hshort)

/-- Settles O13: an illegal field stops the instruction (`exec_of_illegal_field`), nothing else leaves code 5
(`exec_code_cases`), and EQ discards its pad byte by definition. -/
theorem regIndexFault : Obligations.RegIndexFault := by
  refine ⟨fun i s hill => exec_of_illegal_field hill, fun i s t hcode hlegal h => ?_, fun _ _ _ _ _ => rfl⟩
  rcases exec_code_cases h with ⟨-, hc⟩ | ⟨-, hc⟩ | ⟨-, -, hc | ⟨-, b, hb, hill⟩ | ⟨hlow, -⟩⟩
  · rw [hc]
    decide
  · rw [hc]
    decide
  · rwa [hc]
  · exact absurd (hlegal b hb) (Nat.not_le.2 hill)
  · bv_omega

/-- Settles O16: the cases of `step_code_cases` exclude each other by their codes. -/
theorem stepStopsExactlyWhen : Obligations.StepStopsExactlyWhen := by
  intro s t hs h
  rcases step_code_cases hs h with ⟨hend, hc⟩ | ⟨hpc, hop, hc⟩ | ⟨hpc, hop, hc⟩ | ⟨hpc, hhlt, higl, -, rfl⟩ |
    ⟨hwhole, hhlt, higl, hc⟩
  · exact ⟨iff_of_true hc hend, iff_of_false (by rw [hc]; decide) fun ⟨hpc, _⟩ => absurd hend (Nat.not_le.2 hpc),
      iff_of_false (by rw [hc]; decide) fun ⟨hpc, _⟩ => absurd hend (Nat.not_le.2 hpc),
      fun _ _ h2 => absurd hc h2⟩
  · exact ⟨iff_of_false (by rw [hc]; decide) (Nat.not_le.2 hpc), iff_of_true hc ⟨hpc, hop⟩,
      iff_of_false (by rw [hc]; decide) fun ⟨_, higl⟩ => Opcode.noConfusion (hop.symm.trans higl),
      fun _ h1 => absurd hc h1⟩
  · exact ⟨iff_of_false (by rw [hc]; decide) (Nat.not_le.2 hpc),
      iff_of_false (by rw [hc]; decide) fun ⟨_, hhlt⟩ => Opcode.noConfusion (hop.symm.trans hhlt),
      iff_of_true hc ⟨hpc, hop⟩, fun _ _ _ h3 => absurd hc h3⟩
  · rw [State.raise_code]
    exact ⟨iff_of_false (by decide) (Nat.not_le.2 hpc), iff_of_false (by decide) fun ⟨_, hop⟩ => hhlt hop,
      iff_of_false (by decide) fun ⟨_, hop⟩ => higl hop, by decide⟩
  · have hpos := opcodeLength_pos (opcodeAtPc s)
    exact ⟨iff_of_false (by bv_omega) (by omega), iff_of_false (by bv_omega) fun ⟨_, hop⟩ => hhlt hop,
      iff_of_false (by bv_omega) fun ⟨_, hop⟩ => higl hop, by bv_omega⟩

/-- Settles O60: the placed bytes are what the step fetches (`fetchBytes_of_read`), and it runs what the decoder reads
from them (`stepRunsDecodedInstruction`). -/
theorem fetchWordRunsTableInstruction : Obligations.FetchWordRunsTableInstruction := by
  intro s nbits w i hmap hwf hword
  have hlen := tableBytes_length nbits w
  have hread : ∀ k : Nat, k < 4 → (s.fetchWordProg nbits w).read (s.pc.toNat + k) = (tableBytes nbits w)[k]? :=
    fun k hk => Memory.read_placeAll hwf s.pc.toNat (tableBytes nbits w) (by omega)
  refine ⟨s.fetchWordProg nbits w, fun hs => State.withFetchWord_of_not_sticky hs nbits w,
    fun hs => State.withFetchWord_of_sticky hs nbits w, Memory.wf_placeAll hwf _ _, hread,
    fun a ha => Memory.cellsRead_placeAll_outside hwf _ _ (by rwa [hlen]), ?_⟩
  have hpc : (s.withFetchWord nbits w).pc.toNat < (s.withFetchWord nbits w).prog.len := by
    rw [State.withFetchWord_pc, State.withFetchWord_prog]
    have hend := (s.prog.placeAll_len s.pc.toNat (tableBytes nbits w)).2 (List.ne_nil_of_length_pos (by omega))
    exact Nat.lt_of_lt_of_le (by omega) hend
  have hfetch : (s.withFetchWord nbits w).fetchBytes = tableBytes nbits w :=
    fetchBytes_of_read hlen (by simpa using hread)
  obtain ⟨rest, hdecode⟩ := decode_of_decodeTableWord hword
  rw [← State.withFetchWord_running]
  exact stepRunsDecodedInstruction _ i rest (s.withFetchWord_not_sticky nbits w) hpc
    (by rw [hfetch, State.withFetchWord_build, hmap, hdecode])

end Sys2Proof.Machine

/-! SUPPORT. The fetch of one opcode: its missing operand bytes, and its instruction where they are all there
(40_cycle.md R122, R125, R127). -/

namespace Sys2Proof.Machine

/-- What a statement about one opcode has to know of it: its default byte, its length, and its instruction as
`instrAtPc` reads it. The two outcomes of the fetch are then the step's own. -/
theorem fetchesAs_of_instrAtPc {op : Opcode} {b : Byte} {n : Nat} {mk : State → Instr}
    (hbyte : opcodeByte OpcodeMap.default op = some b) (hlen : opcodeLength op = n)
    (hinstr : ∀ s : State, opcodeAtPc s = op → instrAtPc s = mk s) : FetchesAs op b n mk := by
  refine ⟨hbyte, fun s hs hpc hop => ⟨fun hshort => ?_, fun hwhole => ?_⟩⟩
  · exact step_of_short hs hpc (by rwa [hop, hlen])
  · rw [← hinstr s hop]
    exact step_of_whole hs (by rwa [hop, hlen])

end Sys2Proof.Machine

/-! The statement about LOAD (41_load.md). -/

namespace Sys2Proof.Machine

/-- The immediate is zero-extended: it keeps its value as a natural number (R87, R150). -/
theorem immValue_eq_ofNat (imm : Imm16) : immValue imm = BitVec.ofNat 32 imm.toNat :=
  (BitVec.ofNat_toNat 32 imm).symm

theorem instrAtPc_of_load {s : State} (h : opcodeAtPc s = .load) :
    instrAtPc s = .load (progByte s 1) (progByte s 2 ++ progByte s 3) := by rw [instrAtPc, h]

theorem exec_load_of_index {r : Byte} {i : Fin 32} (h : r.toNat = i.val) (imm : Imm16) (s : State) :
    exec (.load r imm) s = .next ((s.setReg i (immValue imm)).advance 4) := withReg_of_index h s _

/-- Settles O20: the fetch by `fetchesAs_of_instrAtPc`; a legal field writes the zero-extended immediate
(`exec_load_of_index`, `immValue_eq_ofNat`), an illegal one stops the instruction (`exec_of_illegal_field`). -/
theorem loadRule : Obligations.LoadRule := by
  refine ⟨fetchesAs_of_instrAtPc rfl rfl fun s => instrAtPc_of_load, fun r imm s => ⟨fun i hi => ?_, fun hill => ?_⟩⟩
  · rw [exec_load_of_index hi, immValue_eq_ofNat]
    rfl
  · exact exec_of_illegal_field ⟨r, List.mem_singleton_self r, hill⟩

end Sys2Proof.Machine

/-! SUPPORT. A step that stops with a code, as STEP answers it, and the steps after a sticky stop (40_cycle.md R120,
R129). -/

namespace Sys2Proof.Machine

/-- Where the step writes a code other than RUNNING, STEP returns the stop with that code. -/
theorem serveStep_of_step_setCode {s t : State} {c : StopCode} (hstep : step s = .next (t.setCode c))
    (hc : c ≠ .running) : serveStep s = some (t.setCode c, .stop (stopBits c)) := by
  have hcode : (t.setCode c).code = stopBits c := t.setCode_code c
  have hstop : (t.setCode c).code ≠ 0#4 := by
    rw [hcode]
    cases c with
    | running => exact absurd rfl hc
    | _ => decide
  exact (serveStep_eq_some_iff s _ _).2 ⟨hstep, by rw [stepResponse_of_stop hstop, hcode]⟩

/-- Every code but RUNNING and END_OF_PROGRAM holds the unit. -/
theorem State.sticky_setCode {c : StopCode} (hrun : c ≠ .running) (hend : c ≠ .endOfProgram) (s : State) :
    (s.setCode c).sticky = true := by
  rw [State.sticky_eq_true_iff, State.setCode_code]
  cases c with
  | running => exact absurd rfl hrun
  | endOfProgram => exact absurd rfl hend
  | _ => decide

/-- After a sticky stop STEP changes nothing and returns the stop again. -/
theorem serveStep_setCode_of_sticky {c : StopCode} (hrun : c ≠ .running) (hend : c ≠ .endOfProgram) (s : State) :
    serveStep (s.setCode c) = some (s.setCode c, .stop (stopBits c)) :=
  serveStep_of_step_setCode (step_of_sticky (State.sticky_setCode hrun hend s)) hrun

end Sys2Proof.Machine

/-! The statements about HLT and IGL (42_halt.md). -/

namespace Sys2Proof.Machine

theorem exec_hlt (s : State) : exec .hlt s = .next (s.stopAfterOpcode .halted) := rfl

theorem exec_igl (s : State) : exec .igl s = .next (s.stopAfterOpcode .illegalOpcode) := rfl

/-- IGL has no operand byte to miss, and no byte of its own for `FetchesAs` to name. -/
theorem step_at_igl {s : State} (hs : s.sticky = false) (hpc : s.pc.toNat < s.prog.len)
    (hop : opcodeAtPc s = .igl) : step s = exec .igl (s.setCode .running) := by
  rw [step_of_no_operands hs hpc (by rw [hop]; rfl), instrAtPc_of_igl hop]

/-- The default map uses every byte below 0x0F (R84). -/
theorem mem_default_bytes {b : Byte} (h : b < 0x0F#8) : b ∈ OpcodeMap.default.bytes := by
  have all : ∀ n < 15, BitVec.ofNat 8 n ∈ OpcodeMap.default.bytes := by decide
  have hb := all b.toNat h
  rwa [BitVec.ofNat_toNat, BitVec.setWidth_eq] at hb

/-- The undefined bytes of the default map are those from 0x0F up (R84, R161). -/
theorem opcodeOf_default_eq_igl_iff (b : Byte) : opcodeOf OpcodeMap.default b = .igl ↔ 0x0F#8 ≤ b := by
  rw [opcodeOf_eq_igl_iff]
  exact ⟨fun hout => BitVec.not_lt.1 fun hlt => hout (mem_default_bytes hlt), not_mem_default_bytes⟩

/-- Settles O21: the opcode byte is the whole instruction, so the fetch gives `exec_hlt`; its code HALTED is sticky
(`serveStep_setCode_of_sticky`). -/
theorem hltRule : Obligations.HltRule := by
  have hfetch : FetchesAs .hlt 0x01#8 1 fun _ => .hlt := fetchesAs_of_instrAtPc rfl rfl fun s => instrAtPc_of_hlt
  refine ⟨hfetch, fun s hs hpc hop => ?_, fun s => ⟨exec_hlt s, fun t ht => ?_⟩⟩
  · obtain ⟨-, hwhole⟩ := hfetch.2 s hs hpc hop
    exact serveStep_of_step_setCode (t := s.advance 1) ((hwhole hpc).trans (exec_hlt _)) (by decide)
  · cases ht
    exact serveStep_setCode_of_sticky (by decide) (by decide) (s.advance 1)

/-- Settles O22: a byte outside the map is the opcode IGL (`opcodeOf_eq_igl_iff`), and from there the argument is
that of HLT with the code ILLEGAL_OPCODE. -/
theorem iglRule : Obligations.IglRule := by
  refine ⟨opcodeOf_default_eq_igl_iff, fun s hs hpc hout => ?_, fun s => ⟨exec_igl s, fun t ht => ?_⟩⟩
  · have hstep : step s = exec .igl (s.setCode .running) := step_at_igl hs hpc ((opcodeOf_eq_igl_iff _ _).2 hout)
    exact ⟨hstep, serveStep_of_step_setCode (t := s.advance 1) (hstep.trans (exec_igl _)) (by decide)⟩
  · cases ht
    exact serveStep_setCode_of_sticky (by decide) (by decide) (s.advance 1)

end Sys2Proof.Machine

/-! SUPPORT. The arithmetic of the ALU: the pattern that stands for an exact result, the commit of one, the roles of
the FRRR bytes, and the exact result an instruction names (43_alu.md sections 1 to 3; 30_encoding.md R88). -/

namespace Sys2Proof.Machine

/-! ### The pattern of an exact result -/

/-- The pattern of an exact sum is the 32-bit sum. -/
theorem wrap32_toInt_add (a b : Word) : wrap32 (a.toInt + b.toInt) = a + b := by
  rw [wrap32, BitVec.ofInt_add, BitVec.ofInt_toInt, BitVec.ofInt_toInt]

theorem wrap32_toInt_sub (a b : Word) : wrap32 (a.toInt - b.toInt) = a - b := by
  rw [wrap32, Int.sub_eq_add_neg, BitVec.ofInt_add, BitVec.ofInt_neg, BitVec.ofInt_toInt, BitVec.ofInt_toInt,
    BitVec.sub_eq_add_neg]

/-- The pattern of an exact product is its low 32 bits (R174). -/
theorem wrap32_toInt_mul (a b : Word) : wrap32 (a.toInt * b.toInt) = a * b := by
  rw [wrap32, BitVec.ofInt_mul, BitVec.ofInt_toInt, BitVec.ofInt_toInt]

/-- The pattern's s32 value is congruent to the number it stands for (R9). -/
theorem wrap32_toInt_congruent (e : Int) : ((wrap32 e).toInt - e) % 4294967296 = 0 := by
  rw [BitVec.toInt_ofInt]
  exact Int.emod_eq_zero_of_dvd Int.dvd_bmod_sub_self

/-- Only the greatest value has no successor in s32 (R176). -/
theorem succ_fits_iff (x : Word) : (s32Min ≤ x.toInt + 1 ∧ x.toInt + 1 ≤ s32Max) ↔ x.toInt ≠ s32Max := by
  have hmin : -2147483648 ≤ x.toInt := x.le_toInt
  have hmax : x.toInt < 2147483648 := x.toInt_lt
  simp only [s32Min, s32Max]
  omega

/-- Only the least value has no predecessor in s32 (R177). -/
theorem pred_fits_iff (x : Word) : (s32Min ≤ x.toInt + -1 ∧ x.toInt + -1 ≤ s32Max) ↔ x.toInt ≠ s32Min := by
  have hmin : -2147483648 ≤ x.toInt := x.le_toInt
  have hmax : x.toInt < 2147483648 := x.toInt_lt
  simp only [s32Min, s32Max]
  omega

/-! ### The commit of an exact result -/

theorem writeResult_of_completes {s : State} {e : Int}
    (h : s.build.arithOverflow = .wrap ∨ (s32Min ≤ e ∧ e ≤ s32Max)) (d : Fin 32) (n : Nat) :
    writeResult d e n s = .next ((s.setReg d (wrap32 e)).advance n) := by
  rcases writeResult_cases d e n s with ⟨he, -⟩ | ⟨-, hfault, hout⟩
  · exact he
  · rcases h with hwrap | hfits
    · cases hwrap.symm.trans hfault
    · exact absurd hfits hout

theorem writeResult_of_overflow {s : State} {e : Int} (hfault : s.build.arithOverflow = .fault)
    (hout : ¬(s32Min ≤ e ∧ e ≤ s32Max)) (d : Fin 32) (n : Nat) :
    writeResult d e n s = raised .arithOverflow s := by
  rcases writeResult_cases d e n s with ⟨-, hwrap | hfits⟩ | ⟨he, -⟩
  · cases hwrap.symm.trans hfault
  · exact absurd hfits hout
  · exact he

/-- The register a completed commit writes holds the pattern. -/
theorem regs_of_commit (s : State) (d : Fin 32) (v : Word) (n : Nat) : ((s.setReg d v).advance n).regs[d] = v :=
  Vector.getElem_set_self d.isLt

/-! ### The operations on checked registers -/

/-- The two rows of R88 are the roles the model computes. -/
theorem frrr_roles {o : ArithOrder} {i1 i2 i3 s1 s2 d : Fin 32}
    (hsrcSrcDst : o = .srcSrcDst → s1 = i1 ∧ s2 = i2 ∧ d = i3)
    (hdstSrcSrc : o = .dstSrcSrc → d = i1 ∧ s1 = i2 ∧ s2 = i3) :
    s1 = srcLeft o i1 i2 i3 ∧ s2 = srcRight o i1 i2 i3 ∧ d = dest o i1 i2 i3 := by
  cases o with
  | srcSrcDst => exact hsrcSrcDst rfl
  | dstSrcSrc =>
    obtain ⟨hd, h1, h2⟩ := hdstSrcSrc rfl
    exact ⟨h1, h2, hd⟩

section
variable {f1 f2 f3 : Byte} {i1 i2 i3 : Fin 32} (h1 : f1.toNat = i1.val) (h2 : f2.toNat = i2.val)
  (h3 : f3.toNat = i3.val)
include h1 h2 h3

theorem aluBinary_of_index (op : Int → Int → Int) (s : State) :
    aluBinary op f1 f2 f3 s = writeResult (dest s.build.arithOrder i1 i2 i3)
      (op (s.getReg (srcLeft s.build.arithOrder i1 i2 i3)).toInt
        (s.getReg (srcRight s.build.arithOrder i1 i2 i3)).toInt) 4 s :=
  withReg3_of_index h1 h2 h3 s _

theorem exec_div_of_index (s : State) :
    exec (.div f1 f2 f3) s = divideInto (srcLeft s.build.arithOrder i1 i2 i3)
      (srcRight s.build.arithOrder i1 i2 i3) (dest s.build.arithOrder i1 i2 i3) s :=
  withReg3_of_index h1 h2 h3 s _

theorem exec_div_of_srcSrcDst {s : State} (ho : s.build.arithOrder = .srcSrcDst) :
    exec (.div f1 f2 f3) s = divideInto i1 i2 i3 s := by
  rw [exec_div_of_index h1 h2 h3, ho]
  rfl

end

theorem aluStep_of_index {r : Byte} {i : Fin 32} (h : r.toNat = i.val) (delta : Int) (s : State) :
    aluStep delta r s = writeResult i ((s.getReg i).toInt + delta) 2 s := withReg_of_index h s _

/-! ### The exact result an instruction names -/

theorem signedReg_of_index {b : Byte} {j : Fin 32} (h : b.toNat = j.val) (s : State) :
    signedReg s b = (s.getReg j).toInt := by
  have hb : b.toNat < 32 := by omega
  rw [signedReg, dif_pos hb]
  simp [State.getReg, h]

theorem index_of_legalReg {b : Byte} (h : legalReg b = true) : ∃ i : Fin 32, b.toNat = i.val :=
  ⟨⟨b.toNat, of_decide_eq_true h⟩, rfl⟩

/-- The destination field and the exact result of ADD, SUB or MUL, with `op` for the operation. -/
def binaryResult (op : Int → Int → Int) (f1 f2 f3 : Byte) (s : State) : Byte × Int :=
  if s.build.arithOrder = .srcSrcDst then (f3, op (signedReg s f1) (signedReg s f2))
  else (f1, op (signedReg s f2) (signedReg s f3))

theorem exactResult_add (f1 f2 f3 : Byte) (s : State) :
    exactResult s (.add f1 f2 f3) = some (binaryResult (fun a b => a + b) f1 f2 f3 s) := by
  cases h : s.build.arithOrder <;> simp [exactResult, binaryResult, h]

theorem exactResult_sub (f1 f2 f3 : Byte) (s : State) :
    exactResult s (.sub f1 f2 f3) = some (binaryResult (fun a b => a - b) f1 f2 f3 s) := by
  cases h : s.build.arithOrder <;> simp [exactResult, binaryResult, h]

theorem exactResult_mul (f1 f2 f3 : Byte) (s : State) :
    exactResult s (.mul f1 f2 f3) = some (binaryResult (fun a b => a * b) f1 f2 f3 s) := by
  cases h : s.build.arithOrder <;> simp [exactResult, binaryResult, h]

/-- On legal fields, ADD, SUB and MUL commit the exact result they name. -/
theorem aluBinary_commits_binaryResult {op : Int → Int → Int} {f1 f2 f3 : Byte} {s : State} {b : Byte} {e : Int}
    {d : Fin 32} (hlegal : [f1, f2, f3].all legalReg = true) (hresult : binaryResult op f1 f2 f3 s = (b, e))
    (hd : b.toNat = d.val) : aluBinary op f1 f2 f3 s = writeResult d e 4 s := by
  have legal : ∀ c ∈ [f1, f2, f3], legalReg c = true := List.all_eq_true.1 hlegal
  obtain ⟨i1, h1⟩ := index_of_legalReg (legal f1 (by simp))
  obtain ⟨i2, h2⟩ := index_of_legalReg (legal f2 (by simp))
  obtain ⟨i3, h3⟩ := index_of_legalReg (legal f3 (by simp))
  rw [aluBinary_of_index h1 h2 h3]
  rw [binaryResult, signedReg_of_index h1, signedReg_of_index h2, signedReg_of_index h3] at hresult
  cases ho : s.build.arithOrder with
  | srcSrcDst =>
    rw [if_pos ho] at hresult
    cases hresult
    obtain rfl : d = i3 := Fin.ext (hd.symm.trans h3)
    rfl
  | dstSrcSrc =>
    rw [if_neg (by rw [ho]; decide)] at hresult
    cases hresult
    obtain rfl : d = i1 := Fin.ext (hd.symm.trans h1)
    rfl

/-- On a legal field, INC and DEC commit the exact result they name. -/
theorem aluStep_commits {delta : Int} {r : Byte} {d : Fin 32} (hd : r.toNat = d.val) (s : State) :
    aluStep delta r s = writeResult d (signedReg s r + delta) 2 s := by
  rw [signedReg_of_index hd, aluStep_of_index hd]

/-- On legal fields, an instruction with an exact result commits it under the overflow law. -/
theorem exec_commits_exactResult {i : Instr} {s : State} {b : Byte} {e : Int} {d : Fin 32}
    (hlegal : i.regsLegal = true) (hresult : exactResult s i = some (b, e)) (hd : b.toNat = d.val) :
    exec i s = writeResult d e (opcodeLength i.opcode) s := by
  cases i with
  | add f1 f2 f3 =>
    rw [exactResult_add] at hresult
    exact aluBinary_commits_binaryResult hlegal (Option.some.inj hresult) hd
  | sub f1 f2 f3 =>
    rw [exactResult_sub] at hresult
    exact aluBinary_commits_binaryResult hlegal (Option.some.inj hresult) hd
  | mul f1 f2 f3 =>
    rw [exactResult_mul] at hresult
    exact aluBinary_commits_binaryResult hlegal (Option.some.inj hresult) hd
  | inc r | dec r =>
    cases hresult
    exact aluStep_commits hd s
  | _ => cases hresult

/-! ### Quotient and remainder -/

/-- The remainder of R175 is that of division toward zero. -/
theorem divide_snd_eq_tmod (n1 n2 : Int) : (divide n1 n2).2 = n1.tmod n2 := by
  rw [divide, Int.tmod_def, Int.mul_comm]

/-- Every quotient but that of −2^31 by −1 fits s32, so its pattern stands for it. -/
theorem wrap32_quotient_toInt {a b : Word} (h : ¬(a.toInt = s32Min ∧ b.toInt = -1)) :
    (wrap32 (divide a.toInt b.toInt).1).toInt = a.toInt.tdiv b.toInt := by
  have hne : a ≠ BitVec.intMin 32 ∨ b ≠ -1#32 := by
    by_cases ha : a = BitVec.intMin 32
    · exact .inr fun hb => h ⟨by rw [ha]; decide, by rw [hb]; decide⟩
    · exact .inl ha
  rw [divide, ← BitVec.toInt_sdiv_of_ne_or_ne a b hne, wrap32, BitVec.ofInt_toInt]

/-- Every remainder fits s32, so its pattern stands for it. -/
theorem wrap32_remainder_toInt (a b : Word) :
    (wrap32 (divide a.toInt b.toInt).2).toInt = a.toInt.tmod b.toInt := by
  rw [divide_snd_eq_tmod, ← BitVec.toInt_srem, wrap32, BitVec.ofInt_toInt]

/-- The remainder is smaller than the divisor. -/
theorem natAbs_tmod_lt_natAbs (a : Int) {b : Int} (h : b ≠ 0) : (a.tmod b).natAbs < b.natAbs := by
  rw [Int.natAbs_tmod]
  exact Nat.mod_lt _ (Int.natAbs_pos.2 h)

/-- The remainder is 0 or has the sign of the dividend. -/
theorem tmod_sign (a b : Int) : a.tmod b = 0 ∨ (0 < a.tmod b ↔ 0 < a) := by
  rcases Int.le_total 0 a with ha | ha
  · have hr : 0 ≤ a.tmod b := Int.tmod_nonneg b ha
    by_cases h0 : a = 0
    · exact .inl (by rw [h0, Int.zero_tmod])
    · omega
  · have hr : 0 ≤ (-a).tmod b := Int.tmod_nonneg b (by omega)
    rw [Int.neg_tmod] at hr
    omega

/-! ### DIV on checked registers -/

theorem divideInto_by_zero {s : State} {s2 : Fin 32} (h : (s.getReg s2).toInt = 0) (s1 d : Fin 32) :
    divideInto s1 s2 d s = raised .divByZero s := if_pos h

theorem divideInto_overflow {s : State} {s1 s2 : Fin 32} (h1 : (s.getReg s1).toInt = s32Min)
    (h2 : (s.getReg s2).toInt = -1) (d : Fin 32) : divideInto s1 s2 d s = raised .divOverflow s := by
  rcases divideInto_cases s1 s2 d s with ⟨h0, -⟩ | ⟨-, -, he⟩ | ⟨-, hne, -⟩
  · rw [h2] at h0
    cases h0
  · exact he
  · exact absurd ⟨h1, h2⟩ hne

/-- Every other pair gives the quotient toward zero and its remainder. -/
theorem divideInto_completes {s : State} {s1 s2 : Fin 32} (h0 : (s.getReg s2).toInt ≠ 0)
    (hne : ¬((s.getReg s1).toInt = s32Min ∧ (s.getReg s2).toInt = -1)) (d : Fin 32) :
    ∃ q r : Word, q.toInt = (s.getReg s1).toInt.tdiv (s.getReg s2).toInt ∧
      r.toInt = (s.getReg s1).toInt.tmod (s.getReg s2).toInt ∧
      divideInto s1 s2 d s = .next (((s.setReg d q).setRem r).advance 4) := by
  rcases divideInto_cases s1 s2 d s with ⟨hz, -⟩ | ⟨h1, h2, -⟩ | ⟨-, -, he⟩
  · exact absurd hz h0
  · exact absurd ⟨h1, h2⟩ hne
  · exact ⟨_, _, wrap32_quotient_toInt hne, wrap32_remainder_toInt _ _, he⟩

end Sys2Proof.Machine

/-! The statements about the ALU: ADD, SUB, MUL, INC and DEC with their overflow law, and DIV with its laws
(43_alu.md). -/

namespace Sys2Proof.Machine

theorem instrAtPc_of_add {s : State} (h : opcodeAtPc s = .add) :
    instrAtPc s = .add (progByte s 1) (progByte s 2) (progByte s 3) := by rw [instrAtPc, h]

theorem instrAtPc_of_sub {s : State} (h : opcodeAtPc s = .sub) :
    instrAtPc s = .sub (progByte s 1) (progByte s 2) (progByte s 3) := by rw [instrAtPc, h]

theorem instrAtPc_of_mul {s : State} (h : opcodeAtPc s = .mul) :
    instrAtPc s = .mul (progByte s 1) (progByte s 2) (progByte s 3) := by rw [instrAtPc, h]

theorem instrAtPc_of_div {s : State} (h : opcodeAtPc s = .div) :
    instrAtPc s = .div (progByte s 1) (progByte s 2) (progByte s 3) := by rw [instrAtPc, h]

theorem instrAtPc_of_inc {s : State} (h : opcodeAtPc s = .inc) : instrAtPc s = .inc (progByte s 1) := by
  rw [instrAtPc, h]

theorem instrAtPc_of_dec {s : State} (h : opcodeAtPc s = .dec) : instrAtPc s = .dec (progByte s 1) := by
  rw [instrAtPc, h]

/-- Settles O23: each of the three is `aluBinary` of its exact operation, whose pattern is the 32-bit one
(`wrap32_toInt_add` and the like); on checked registers it commits that result under the overflow law. -/
theorem addSubMulRule : Obligations.AddSubMulRule := by
  refine ⟨fetchesAs_of_instrAtPc rfl rfl fun _ => instrAtPc_of_add,
    fetchesAs_of_instrAtPc rfl rfl fun _ => instrAtPc_of_sub,
    fetchesAs_of_instrAtPc rfl rfl fun _ => instrAtPc_of_mul, fun i f1 f2 f3 f g hop s => ?_⟩
  obtain ⟨hexec, hpattern⟩ : exec i s = aluBinary f f1 f2 f3 s ∧
      ∀ a b : Word, wrap32 (f a.toInt b.toInt) = g a b := by
    rcases hop with ⟨rfl, rfl, rfl⟩ | ⟨rfl, rfl, rfl⟩ | ⟨rfl, rfl, rfl⟩
    · exact ⟨rfl, wrap32_toInt_add⟩
    · exact ⟨rfl, wrap32_toInt_sub⟩
    · exact ⟨rfl, wrap32_toInt_mul⟩
  rw [hexec]
  refine ⟨fun i1 i2 i3 s1 s2 d h1 h2 h3 hssd hdss => ?_, fun hill => withReg3_of_illegal hill s _⟩
  obtain ⟨rfl, rfl, rfl⟩ := frrr_roles hssd hdss
  rw [aluBinary_of_index h1 h2 h3, ← hpattern]
  exact ⟨fun hok => writeResult_of_completes hok _ 4, fun hfault hout => writeResult_of_overflow hfault hout _ 4⟩

/-- Settles O24: all five commit their exact result (`exec_commits_exactResult`); the pattern stands for it where it
fits, and is congruent to it always. -/
theorem overflowLaw : Obligations.OverflowLaw := by
  intro i s b e d hlegal hresult hd
  rw [exec_commits_exactResult hlegal hresult hd]
  refine ⟨fun hfits => ⟨_, writeResult_of_completes (.inr hfits) d _, ?_, rfl⟩,
    fun _ hwrap => ⟨_, writeResult_of_completes (.inl hwrap) d _, ?_, rfl⟩,
    fun hout hfault => writeResult_of_overflow hfault hout d _⟩
  · rw [regs_of_commit, wrap32_toInt_of_fits hfits]
  · rw [regs_of_commit]
    exact wrap32_toInt_congruent e

/-- Settles O25, from the three cases of DIV on checked registers in either ARITH_ORDER (`frrr_roles`). -/
theorem divRule : Obligations.DivRule := by
  refine ⟨fetchesAs_of_instrAtPc rfl rfl fun _ => instrAtPc_of_div, fun f1 f2 f3 s => ⟨?_, fun hill =>
    withReg3_of_illegal hill s _⟩⟩
  intro i1 i2 i3 s1 s2 d h1 h2 h3 hssd hdss
  obtain ⟨rfl, rfl, rfl⟩ := frrr_roles hssd hdss
  rw [exec_div_of_index h1 h2 h3]
  refine ⟨fun h0 => divideInto_by_zero h0 _ _, fun hmin hneg => divideInto_overflow hmin hneg _, fun h0 hne => ?_⟩
  obtain ⟨q, r, hq, hr, he⟩ := divideInto_completes h0 hne (dest s.build.arithOrder i1 i2 i3)
  refine ⟨q, r, hq, ?_, he⟩
  rw [hr, hq, Int.tmod_def, Int.mul_comm]
  rfl

/-- DIV under SrcSrcDst, for a legal pair: the two results a reader of x[d] and rem sees. -/
theorem exists_quotient_remainder {s : State} (ho : s.build.arithOrder = .srcSrcDst) {f1 f2 f3 : Byte}
    {i1 i2 i3 : Fin 32} (h1 : f1.toNat = i1.val) (h2 : f2.toNat = i2.val) (h3 : f3.toNat = i3.val)
    (h0 : s.regs[i2].toInt ≠ 0) (hne : ¬(s.regs[i1].toInt = s32Min ∧ s.regs[i2].toInt = -1)) :
    ∃ t : State, exec (.div f1 f2 f3) s = .next t ∧
      t.regs[i3].toInt = s.regs[i1].toInt.tdiv s.regs[i2].toInt ∧
      t.rem.toInt = s.regs[i1].toInt.tmod s.regs[i2].toInt := by
  obtain ⟨q, r, hq, hr, he⟩ := divideInto_completes h0 hne i3
  refine ⟨((s.setReg i3 q).setRem r).advance 4, (exec_div_of_srcSrcDst h1 h2 h3 ho).trans he, ?_, hr⟩
  exact (congrArg BitVec.toInt (Vector.getElem_set_self i3.isLt)).trans hq

/-- The table of 43_alu.md section 3: dividend, divisor, quotient, and the pattern of the remainder. -/
def divTable : List (Int × Int × Int × Word) :=
  [(7, 2, 3, 0x00000001#32), (-7, 2, -3, 0xFFFFFFFF#32), (7, -2, -3, 0x00000001#32), (-7, -2, 3, 0xFFFFFFFF#32),
    (6, 3, 2, 0x00000000#32), (0, 5, 0, 0x00000000#32), (5, 7, 0, 0x00000005#32), (-5, 7, 0, 0xFFFFFFFB#32),
    (-2147483648, 1, -2147483648, 0x00000000#32), (-2147483648, 2, -1073741824, 0x00000000#32),
    (2147483647, -1, -2147483647, 0x00000000#32)]

/-- Every row is a legal pair with its quotient toward zero and its remainder. -/
theorem divTable_rows : ∀ row ∈ divTable, row.2.1 ≠ 0 ∧ ¬(row.1 = s32Min ∧ row.2.1 = -1) ∧
    row.1.tdiv row.2.1 = row.2.2.1 ∧ row.1.tmod row.2.1 = row.2.2.2.toInt := by decide

/-- Settles O26: the law is that of division toward zero (`Int.tdiv_mul_add_tmod`, `natAbs_tmod_lt_natAbs`,
`tmod_sign`), the rows are computed (`divTable_rows`), and the two faults are those of `divideInto`. -/
theorem divLaws : Obligations.DivLaws := by
  refine ⟨fun f1 f2 f3 i1 i2 i3 s ho h1 h2 h3 h0 hne => ?_, fun s row ho hrow hn1 hn2 => ?_, fun s ho => ?_⟩
  · obtain ⟨t, ht, hq, hr⟩ := exists_quotient_remainder ho h1 h2 h3 h0 hne
    refine ⟨t, ht, ?_⟩
    rw [hq, hr]
    exact ⟨(Int.tdiv_mul_add_tmod _ _).symm, natAbs_tmod_lt_natAbs _ h0, tmod_sign _ _⟩
  · obtain ⟨h0, hne, hquot, hrem⟩ := divTable_rows row hrow
    rw [← hn2] at h0
    rw [← hn1, ← hn2] at hne hquot hrem
    obtain ⟨t, ht, hq, hr⟩ := exists_quotient_remainder (f1 := 0x00#8) (f2 := 0x01#8) (f3 := 0x02#8) ho
      (i1 := 0) (i2 := 1) (i3 := 2) rfl rfl rfl h0 hne
    exact ⟨t, ht, hq.trans hquot, BitVec.eq_of_toInt_eq (hr.trans hrem)⟩
  · have hexec : exec (.div 0x00#8 0x01#8 0x02#8) s = divideInto 0 1 2 s := exec_div_of_srcSrcDst rfl rfl rfl ho
    rw [hexec]
    exact ⟨fun ⟨hmin, hneg⟩ => divideInto_overflow (s1 := 0) (s2 := 1) hmin hneg 2,
      fun h0 => divideInto_by_zero (s2 := 1) h0 0 2⟩

/-- INC and DEC on a checked register, where `bound` is the one value whose exact result does not fit. -/
theorem aluStep_rule {delta bound : Int} {g : Word → Word} (hpattern : ∀ x : Word, wrap32 (x.toInt + delta) = g x)
    (hbound : ∀ x : Word, (s32Min ≤ x.toInt + delta ∧ x.toInt + delta ≤ s32Max) ↔ x.toInt ≠ bound)
    {r : Byte} {i : Fin 32} (h : r.toNat = i.val) (s : State) :
    (s.build.arithOverflow = .wrap ∨ s.regs[i].toInt ≠ bound →
        aluStep delta r s = .next { s with regs := s.regs.set i (g s.regs[i]), pc := s.pc + 2#32 }) ∧
      (s.build.arithOverflow = .fault → s.regs[i].toInt = bound →
        aluStep delta r s = .next { s with status := 0x08#8 }) := by
  rw [aluStep_of_index h, ← hpattern, ← hbound]
  refine ⟨fun hok => writeResult_of_completes hok i 2, fun hfault hend => ?_⟩
  exact writeResult_of_overflow hfault (fun hfits => (hbound _).1 hfits hend) i 2

/-- Settles O27, by `aluStep_rule` for each of the two, at its own end of the range. -/
theorem incDecRule : Obligations.IncDecRule := by
  refine ⟨fetchesAs_of_instrAtPc rfl rfl fun _ => instrAtPc_of_inc,
    fetchesAs_of_instrAtPc rfl rfl fun _ => instrAtPc_of_dec,
    fun r s => ⟨fun i hi => ?_, fun hill => ⟨withReg_of_illegal hill s _, withReg_of_illegal hill s _⟩⟩⟩
  obtain ⟨hinc, hincFault⟩ := aluStep_rule (delta := 1) (bound := s32Max) (fun x => wrap32_toInt_add x 1#32)
    succ_fits_iff hi s
  obtain ⟨hdec, hdecFault⟩ := aluStep_rule (delta := -1) (bound := s32Min) (fun x => wrap32_toInt_sub x 1#32)
    pred_fits_iff hi s
  exact ⟨hinc, hincFault, hdec, hdecFault⟩

end Sys2Proof.Machine

/-! SUPPORT. The jumps and EQ on checked registers, and the 32-bit pattern of a relative target (44_control_flow.md
R200, R208). -/

namespace Sys2Proof.Machine

/-! ### The pattern of a relative target -/

/-- Taken modulo 2^32, the exact forward target is the 32-bit sum. -/
theorem ofNat_jumpBase_add (s : State) (i : Fin 32) :
    BitVec.ofNat 32 (jumpBase s + jumpOperand s i) = s.pc + 2#32 + s.getReg i := by
  simp [jumpBase, jumpOperand, BitVec.ofNat_add]

/-- The exact backward target is the 32-bit difference, where there is one. The base may be past 2^32. -/
theorem ofNat_jumpBase_sub {s : State} {i : Fin 32} (h : jumpOperand s i ≤ jumpBase s) :
    BitVec.ofNat 32 (jumpBase s - jumpOperand s i) = s.pc + 2#32 - s.getReg i := by
  simp only [jumpBase, jumpOperand] at *
  bv_omega

/-! ### The operations on checked registers -/

theorem jumpIf_taken {r : Byte} {i : Fin 32} (h : r.toNat = i.val) {taken : Bool} (ht : taken = true) (s : State) :
    jumpIf taken r s = .next (s.setPc (s.getReg i)) := (withReg_of_index h s _).trans (if_pos ht)

theorem jumpIf_not_taken {r : Byte} {i : Fin 32} (h : r.toNat = i.val) {taken : Bool} (ht : taken = false)
    (s : State) : jumpIf taken r s = .next (s.advance 2) := (withReg_of_index h s _).trans (if_neg (by simp [ht]))

theorem exec_jmpf_of_index {r : Byte} {i : Fin 32} (h : r.toNat = i.val) (s : State) :
    exec (.jmpf r) s = if jumpBase s + jumpOperand s i > 4294967295 then raised .pcOverflow s
      else .next (s.setPc (s.pc + 2#32 + s.getReg i)) := by
  rw [← ofNat_jumpBase_add]
  exact withReg_of_index h s _

theorem exec_jmpb_of_index {r : Byte} {i : Fin 32} (h : r.toNat = i.val) (s : State) :
    exec (.jmpb r) s = if jumpOperand s i > jumpBase s then raised .jumpUnderflow s
      else .next (s.setPc (BitVec.ofNat 32 (jumpBase s - jumpOperand s i))) := withReg_of_index h s _

theorem exec_eq_of_index {f1 f2 : Byte} {i1 i2 : Fin 32} (h1 : f1.toNat = i1.val) (h2 : f2.toNat = i2.val)
    (pad : Byte) (s : State) :
    exec (.eq f1 f2 pad) s = .next ((s.setEq (equalFlag (s.getReg i1) (s.getReg i2))).advance 4) :=
  withReg2_of_index h1 h2 s _

end Sys2Proof.Machine

/-! The statements about the control flow: JMP, JMPF, JMPB, EQ, JEQ and JNEQ (44_control_flow.md). -/

namespace Sys2Proof.Machine

theorem instrAtPc_of_jmp {s : State} (h : opcodeAtPc s = .jmp) : instrAtPc s = .jmp (progByte s 1) := by
  rw [instrAtPc, h]

theorem instrAtPc_of_jmpf {s : State} (h : opcodeAtPc s = .jmpf) : instrAtPc s = .jmpf (progByte s 1) := by
  rw [instrAtPc, h]

theorem instrAtPc_of_jmpb {s : State} (h : opcodeAtPc s = .jmpb) : instrAtPc s = .jmpb (progByte s 1) := by
  rw [instrAtPc, h]

theorem instrAtPc_of_eq {s : State} (h : opcodeAtPc s = .eq) :
    instrAtPc s = .eq (progByte s 1) (progByte s 2) (progByte s 3) := by rw [instrAtPc, h]

theorem instrAtPc_of_jeq {s : State} (h : opcodeAtPc s = .jeq) : instrAtPc s = .jeq (progByte s 1) := by
  rw [instrAtPc, h]

theorem instrAtPc_of_jneq {s : State} (h : opcodeAtPc s = .jneq) : instrAtPc s = .jneq (progByte s 1) := by
  rw [instrAtPc, h]

/-- Settles O28: JMP is the absolute jump that is always taken (`jumpIf_taken`). -/
theorem jmpRule : Obligations.JmpRule :=
  ⟨fetchesAs_of_instrAtPc rfl rfl fun _ => instrAtPc_of_jmp, fun _ s =>
    ⟨fun _ hi => jumpIf_taken hi rfl s, fun hill => withReg_of_illegal hill s _⟩⟩

/-- Settles O29: the exact sum decides between the jump and PC_OVERFLOW (`exec_jmpf_of_index`). -/
theorem jmpfRule : Obligations.JmpfRule := by
  refine ⟨fetchesAs_of_instrAtPc rfl rfl fun _ => instrAtPc_of_jmpf, fun r s => ⟨fun i hi => ?_, fun hill =>
    withReg_of_illegal hill s _⟩⟩
  rw [exec_jmpf_of_index hi]
  exact ⟨fun hfits => if_neg (Nat.not_lt.2 hfits), fun hout => if_pos hout⟩

/-- Settles O30: the comparison of the offset with a + 2 decides between JUMP_UNDERFLOW and the jump
(`exec_jmpb_of_index`), whose target is then the 32-bit difference (`ofNat_jumpBase_sub`). -/
theorem jmpbRule : Obligations.JmpbRule := by
  refine ⟨fetchesAs_of_instrAtPc rfl rfl fun _ => instrAtPc_of_jmpb, fun r s => ⟨fun i hi => ?_, fun hill =>
    withReg_of_illegal hill s _⟩⟩
  rw [exec_jmpb_of_index hi]
  refine ⟨fun hle => ?_, fun hgt => if_pos hgt⟩
  have hfits : jumpOperand s i ≤ jumpBase s := hle
  rw [if_neg (Nat.not_lt.2 hfits), ofNat_jumpBase_sub hfits]
  rfl

/-- Settles O31: the flag EQ writes is the comparison of the two words (`exec_eq_of_index`); one illegal field of the
two is enough for REG_INDEX. -/
theorem eqRule : Obligations.EqRule :=
  ⟨fetchesAs_of_instrAtPc rfl rfl fun _ => instrAtPc_of_eq, fun _ _ pad s =>
    ⟨fun _ _ h1 h2 => exec_eq_of_index h1 h2 pad s, fun hill => withReg2_of_illegal hill s _⟩⟩

/-- Settles O32: JEQ is the absolute jump taken if eq, JNEQ the one taken if not eq, so either value of eq takes
exactly one of them (`jumpIf_taken`, `jumpIf_not_taken`). -/
theorem conditionalJumpRule : Obligations.ConditionalJumpRule := by
  refine ⟨fetchesAs_of_instrAtPc rfl rfl fun _ => instrAtPc_of_jeq,
    fetchesAs_of_instrAtPc rfl rfl fun _ => instrAtPc_of_jneq,
    fun r s => ⟨fun i hi => ⟨fun heq => ?_, fun heq => ?_⟩, fun hill =>
      ⟨withReg_of_illegal hill s _, withReg_of_illegal hill s _⟩⟩⟩
  · exact ⟨jumpIf_taken hi heq s, jumpIf_not_taken hi (congrArg not heq) s⟩
  · exact ⟨jumpIf_not_taken hi heq s, jumpIf_taken hi (congrArg not heq) s⟩

end Sys2Proof.Machine

/-! SUPPORT. ALOC on a checked register, what its choice reads of the heap, and a heap that only grows (45_heap.md
R231, R232, R234). -/

namespace Sys2Proof.Machine

/-! ### ALOC on a checked register -/

theorem instrAtPc_of_aloc {s : State} (h : opcodeAtPc s = .aloc) : instrAtPc s = .aloc (progByte s 1) := by
  rw [instrAtPc, h]

theorem exec_aloc_of_index {r : Byte} {i : Fin 32} (h : r.toNat = i.val) (s : State) :
    exec (.aloc r) s = allocate (s.getReg i).toInt s := withReg_of_index h s _

theorem allocate_of_neg {k : Int} (h : k < 0) (s : State) : allocate k s = raised .heapNegative s := if_pos h

/-- A count that is not negative grows the heap where there is room. -/
theorem allocate_natCast (k : Nat) (s : State) :
    allocate k s = if s.heap.len + k > s.build.heapMax then raised .heapOverflow s
      else .next ((s.setHeap (s.heap.grow k)).advance 2) := if_neg (Int.not_lt.2 (Int.natCast_nonneg k))

/-! ### Growth -/

/-- Growing keeps every byte of the heap and adds to its length. -/
theorem Memory.grow_extends (m : Memory) (k : Nat) : (m.grow k).Extends m :=
  ⟨Nat.le_add_right _ _, fun a ha => by rw [read_grow, if_pos ha]⟩

/-- Every new address of a grown sequence reads 0x00. -/
theorem Memory.read_grow_new (m : Memory) {k a : Nat} (hge : m.len ≤ a) (hlt : a < m.len + k) :
    (m.grow k).read a = some 0x00#8 := by rw [read_grow, if_neg (Nat.not_lt.2 hge), if_pos hlt]

/-- An instruction at most lengthens the heap. -/
theorem Effect.heap_extends {s t : State} (he : Effect s t) : t.heap.Extends s.heap := by
  cases he with
  | fault c _ => exact .refl s.heap
  | stop c _ => exact .refl s.heap
  | completes regs pc eq rem k _ heap hh =>
    rcases hh with rfl | rfl
    · exact .refl s.heap
    · exact s.heap.grow_extends k

/-- A step at most lengthens the heap. -/
theorem step_heap_extends {s t : State} (h : step s = .next t) : t.heap.Extends s.heap := by
  rcases step_effect h with rfl | ⟨c, rfl⟩ | he
  · exact .refl t.heap
  · exact .refl s.heap
  · exact he.heap_extends

/-- A command other than RESET at most lengthens the heap. -/
theorem serve_heap_extends {fuel : Nat} {c : Command} {s t : State} {r : Response}
    (h : serve fuel c s = some (t, r)) (hreset : c ≠ .reset) : t.heap.Extends s.heap :=
  serve_cases (P := fun a b => b.heap.Extends a.heap) (fun a => .refl a.heap) (fun _ _ _ hab hbc => hbc.trans hab)
    (fun _ _ => step_heap_extends) fuel c s t r h (fun hc => absurd hc hreset) (fun _ _ _ => .refl s.heap)
    (fun _ _ _ => .refl s.heap) (fun _ _ => .refl s.heap)

/-- The heap of a legal state lists no byte, so each of its addresses reads 0x00. -/
theorem State.heap_read_of_wf {s : State} (h : s.wf) {a : Nat} (ha : a < s.heap.len) :
    s.heap.read a = some 0x00#8 := by
  obtain ⟨-, -, -, -, -, hcells, -⟩ := h
  rw [Memory.read_of_lt ha, hcells, cellsRead]

/-! ### What ALOC reads of the heap -/

/-- With another heap, the same action differs in the heap alone. -/
theorem Action.perform_other_heap (a : Action) (s : State) (h : Memory) :
    { a.perform { s with heap := h } with heap := (a.perform s).heap } = a.perform s := by
  cases a <;> rfl

theorem Action.ne_overflow_of_code {a : Action} {s : State} (h : (a.perform s).code ≠ 12#4) :
    a ≠ .fault .heapOverflow := by
  rintro rfl
  exact h (State.raise_code s .heapOverflow)

/-- The choice of ALOC where the heap has room: it reads the count alone. -/
def Action.growBy (k : Int) : Action := if k < 0 then .fault .heapNegative else .grow k.toNat

theorem Action.allocate_of_ne_overflow {k : Int} {s : State} (h : allocate k s ≠ .fault .heapOverflow) :
    allocate k s = growBy k := by
  by_cases hneg : k < 0
  · rw [allocate, growBy, if_pos hneg, if_pos hneg]
  · rw [allocate, if_neg hneg] at h ⊢
    rw [growBy, if_neg hneg]
    exact if_neg fun hfull => h (if_pos hfull)

/-- The length of the heap decides only whether ALOC raises HEAP_OVERFLOW. -/
theorem action_aloc_of_ne_overflow {r : Byte} {s : State} (h : action (.aloc r) s ≠ .fault .heapOverflow) :
    action (.aloc r) s = Action.checkReg r fun i => .growBy (s.getReg i).toInt := by
  refine Action.checkReg_congr fun i hi => Action.allocate_of_ne_overflow ?_
  rwa [action, Action.checkReg_of_index hi] at h

/-- With another heap an instruction chooses the same action, or it is an ALOC that overflows one of the two. -/
theorem action_other_heap {i : Instr} {s : State} {h : Memory}
    (hi : i.opcode ≠ .aloc ∨ (action i s ≠ .fault .heapOverflow ∧
      action i { s with heap := h } ≠ .fault .heapOverflow)) : action i s = action i { s with heap := h } := by
  by_cases hop : i.opcode = .aloc
  · obtain ⟨hs, hh⟩ := hi.resolve_left (not_not_intro hop)
    cases i with
    | aloc r => exact (action_aloc_of_ne_overflow hs).trans (action_aloc_of_ne_overflow hh).symm
    | _ => cases hop
  · exact action_congr rfl rfl (fun _ => rfl) (fun ho => absurd ho hop) fun _ _ _ _ => rfl

end Sys2Proof.Machine

/-! The statements about the heap: ALOC, what observes the heap, and its growth until RESET (45_heap.md). -/

namespace Sys2Proof.Machine

/-- Settles O33: a negative count faults (`allocate_of_neg`), any other is weighed against HEAP_MAX
(`allocate_natCast`), and the heap it leaves is the grown one (`Memory.grow_extends`, `Memory.read_grow_new`). -/
theorem alocRule : Obligations.AlocRule := by
  refine ⟨fetchesAs_of_instrAtPc rfl rfl fun _ => instrAtPc_of_aloc, fun r s => ⟨fun i hi => ?_, fun hill =>
    withReg_of_illegal hill s _⟩⟩
  rw [exec_aloc_of_index hi]
  refine ⟨fun hneg => allocate_of_neg hneg s, fun k hk hfull => ?_, fun k hk hroom => ?_⟩
  · rw [State.getReg, hk, allocate_natCast, if_pos hfull]
    rfl
  · obtain ⟨-, hkept⟩ := s.heap.grow_extends k
    refine ⟨s.heap.grow k, ?_, s.heap.grow_len k, hkept, fun _ => s.heap.read_grow_new,
      fun _ hpast => Memory.read_of_ge (m := s.heap.grow k) hpast⟩
    rw [State.getReg, hk, allocate_natCast, if_neg (Nat.not_lt.2 hroom)]
    rfl

/-- Settles O39: but for HEAP_OVERFLOW, the choice of action does not depend on the heap (`action_other_heap`), and the
same action differs in the heap alone (`Action.perform_other_heap`). -/
theorem heapUnobservable : Obligations.HeapUnobservable := by
  intro i s t u h _ ht hu hi
  obtain rfl := eq_perform_of_exec ht
  obtain rfl := eq_perform_of_exec hu
  have same : action i s = action i { s with heap := h } :=
    action_other_heap (hi.imp_right fun ⟨hs, hh⟩ =>
      ⟨Action.ne_overflow_of_code hs, Action.ne_overflow_of_code hh⟩)
  rw [← same]
  exact Action.perform_other_heap _ s h

/-- Settles O45: no step shortens or rewrites the heap (`step_heap_extends`), so neither does RUN, and the host writes
none of it (`serve_heap_extends`); a legal heap lists no byte (`State.heap_read_of_wf`). -/
theorem heapOnlyGrows : Obligations.HeapOnlyGrows :=
  ⟨fun _ _ _ _ _ hreset h => serve_heap_extends h hreset, fun _ _ hwf ha => State.heap_read_of_wf hwf ha⟩

end Sys2Proof.Machine

/-! SUPPORT. The table of operation faults, and the instruction that raises each (60_exceptions.md R241). -/

namespace Sys2Proof.Machine

/-! ### The table -/

/-- The rows of R241 for the faults of an operation: when `i` raises each, on the state it runs in. The other codes
are not an operation's. -/
def FaultCause (s : State) (i : Instr) : StopCode → Prop
  | .divByZero => ∃ f1 f2 f3, i = .div f1 f2 f3 ∧
      signedReg s (if s.build.arithOrder = .srcSrcDst then f2 else f3) = 0
  | .divOverflow => ∃ f1 f2 f3, i = .div f1 f2 f3 ∧
      signedReg s (if s.build.arithOrder = .srcSrcDst then f1 else f2) = s32Min ∧
      signedReg s (if s.build.arithOrder = .srcSrcDst then f2 else f3) = -1
  | .arithOverflow => s.build.arithOverflow = .fault ∧ ∃ d e, exactResult s i = some (d, e) ∧
      (e < s32Min ∨ s32Max < e)
  | .pcOverflow => ∃ r, i = .jmpf r ∧ 4294967295 < s.pc.toNat + 2 + unsignedReg s r
  | .jumpUnderflow => ∃ r, i = .jmpb r ∧ s.pc.toNat + 2 < unsignedReg s r
  | .heapNegative => ∃ r, i = .aloc r ∧ signedReg s r < 0
  | .heapOverflow => ∃ r, i = .aloc r ∧ 0 ≤ signedReg s r ∧ (s.build.heapMax : Int) < s.heap.len + signedReg s r
  | _ => False

/-! ### Legal fields name registers -/

theorem index_of_regsLegal {i : Instr} (hlegal : i.regsLegal = true) {b : Byte} (hb : b ∈ i.regFields) :
    ∃ j : Fin 32, b.toNat = j.val := index_of_legalReg (List.all_eq_true.1 hlegal b hb)

theorem indices_of_regsLegal {i : Instr} (hlegal : i.regsLegal = true) {f1 f2 f3 : Byte}
    (hi : i.regFields = [f1, f2, f3]) :
    ∃ i1 i2 i3 : Fin 32, f1.toNat = i1.val ∧ f2.toNat = i2.val ∧ f3.toNat = i3.val := by
  obtain ⟨i1, h1⟩ := index_of_regsLegal hlegal (b := f1) (by simp [hi])
  obtain ⟨i2, h2⟩ := index_of_regsLegal hlegal (b := f2) (by simp [hi])
  obtain ⟨i3, h3⟩ := index_of_regsLegal hlegal (b := f3) (by simp [hi])
  exact ⟨i1, i2, i3, h1, h2, h3⟩

/-- The field an exact result is written to is one of the checked ones. -/
theorem exactResult_field_mem {s : State} {i : Instr} {b : Byte} {e : Int} (h : exactResult s i = some (b, e)) :
    b ∈ i.regFields := by
  cases i with
  | add f1 f2 f3 | sub f1 f2 f3 | mul f1 f2 f3 =>
    rw [exactResult] at h
    split at h <;> cases h <;> simp [Instr.regFields]
  | inc r | dec r =>
    cases h
    exact List.mem_singleton_self b
  | _ => cases h

section
variable {f1 f2 f3 : Byte} {i1 i2 i3 : Fin 32}

/-- The field of the left source names the register the model reads as the left source (R88). -/
theorem signedReg_srcLeft (h1 : f1.toNat = i1.val) (h2 : f2.toNat = i2.val) (o : ArithOrder) (s : State) :
    signedReg s (if o = .srcSrcDst then f1 else f2) = (s.getReg (srcLeft o i1 i2 i3)).toInt := by
  cases o with
  | srcSrcDst => exact signedReg_of_index h1 s
  | dstSrcSrc => exact signedReg_of_index h2 s

theorem signedReg_srcRight (h2 : f2.toNat = i2.val) (h3 : f3.toNat = i3.val) (o : ArithOrder) (s : State) :
    signedReg s (if o = .srcSrcDst then f2 else f3) = (s.getReg (srcRight o i1 i2 i3)).toInt := by
  cases o with
  | srcSrcDst => exact signedReg_of_index h2 s
  | dstSrcSrc => exact signedReg_of_index h3 s

end

/-! ### A cause raises its fault -/

/-- On legal fields, an instruction with a cause in the table raises that fault. -/
theorem exec_of_faultCause {i : Instr} {s : State} {c : StopCode} (hlegal : i.regsLegal = true)
    (h : FaultCause s i c) : exec i s = raised c s := by
  cases c with
  | divByZero =>
    obtain ⟨f1, f2, f3, rfl, hzero⟩ := h
    obtain ⟨i1, i2, i3, h1, h2, h3⟩ := indices_of_regsLegal hlegal rfl
    rw [signedReg_srcRight (i1 := i1) h2 h3] at hzero
    rw [exec_div_of_index h1 h2 h3, divideInto_by_zero hzero]
  | divOverflow =>
    obtain ⟨f1, f2, f3, rfl, hleft, hright⟩ := h
    obtain ⟨i1, i2, i3, h1, h2, h3⟩ := indices_of_regsLegal hlegal rfl
    rw [signedReg_srcLeft (i3 := i3) h1 h2] at hleft
    rw [signedReg_srcRight (i1 := i1) h2 h3] at hright
    rw [exec_div_of_index h1 h2 h3, divideInto_overflow hleft hright]
  | arithOverflow =>
    obtain ⟨hmode, b, e, hresult, hout⟩ := h
    obtain ⟨d, hd⟩ := index_of_regsLegal hlegal (exactResult_field_mem hresult)
    rw [exec_commits_exactResult hlegal hresult hd, writeResult_of_overflow hmode (by omega)]
  | pcOverflow =>
    obtain ⟨r, rfl, hpast⟩ := h
    obtain ⟨j, hj⟩ := index_of_regsLegal hlegal (List.mem_singleton_self r)
    rw [unsignedReg_of_index hj] at hpast
    rw [exec_jmpf_of_index hj]
    exact if_pos hpast
  | jumpUnderflow =>
    obtain ⟨r, rfl, hpast⟩ := h
    obtain ⟨j, hj⟩ := index_of_regsLegal hlegal (List.mem_singleton_self r)
    rw [unsignedReg_of_index hj] at hpast
    rw [exec_jmpb_of_index hj]
    exact if_pos hpast
  | heapNegative =>
    obtain ⟨r, rfl, hneg⟩ := h
    obtain ⟨j, hj⟩ := index_of_regsLegal hlegal (List.mem_singleton_self r)
    rw [signedReg_of_index hj] at hneg
    rw [exec_aloc_of_index hj, allocate_of_neg hneg]
  | heapOverflow =>
    obtain ⟨r, rfl, hcount, hfull⟩ := h
    obtain ⟨j, hj⟩ := index_of_regsLegal hlegal (List.mem_singleton_self r)
    rw [signedReg_of_index hj] at hcount hfull
    obtain ⟨k, hk⟩ := Int.eq_ofNat_of_zero_le hcount
    rw [exec_aloc_of_index hj, hk, allocate_natCast, if_pos (by omega)]
  | _ => exact False.elim h

/-! ### Without a cause an instruction completes -/

/-- An instruction with an exact result commits it, unless the table has it overflow. -/
theorem faultCause_or_commits {i : Instr} {s t : State} {b : Byte} {e : Int} (hlegal : i.regsLegal = true)
    (hresult : exactResult s i = some (b, e)) (h : exec i s = .next t) :
    (∃ c, FaultCause s i c) ∨ t.status = s.status := by
  obtain ⟨d, hd⟩ := index_of_regsLegal hlegal (exactResult_field_mem hresult)
  rw [exec_commits_exactResult hlegal hresult hd] at h
  rcases writeResult_cases d e (opcodeLength i.opcode) s with ⟨he, -⟩ | ⟨-, hmode, hout⟩
  · cases he.symm.trans h
    exact .inr rfl
  · exact .inl ⟨.arithOverflow, hmode, b, e, hresult, by omega⟩

/-- A jump to a register, taken or not, leaves status as it was. -/
theorem jumpIf_status {taken : Bool} {r : Byte} {j : Fin 32} (hj : r.toNat = j.val) {s t : State}
    (h : jumpIf taken r s = .next t) : t.status = s.status := by
  cases taken with
  | true =>
    cases (jumpIf_taken hj rfl s).symm.trans h
    rfl
  | false =>
    cases (jumpIf_not_taken hj rfl s).symm.trans h
    rfl

/-- On legal fields, every other instruction than HLT and IGL has a cause in the table or leaves status as it was. -/
theorem faultCause_or_completes {i : Instr} {s t : State} (hhlt : i ≠ .hlt) (higl : i ≠ .igl)
    (hlegal : i.regsLegal = true) (h : exec i s = .next t) : (∃ c, FaultCause s i c) ∨ t.status = s.status := by
  cases i with
  | hlt => exact absurd rfl hhlt
  | igl => exact absurd rfl higl
  | add f1 f2 f3 => exact faultCause_or_commits hlegal (exactResult_add f1 f2 f3 s) h
  | sub f1 f2 f3 => exact faultCause_or_commits hlegal (exactResult_sub f1 f2 f3 s) h
  | mul f1 f2 f3 => exact faultCause_or_commits hlegal (exactResult_mul f1 f2 f3 s) h
  | inc r | dec r => exact faultCause_or_commits hlegal rfl h
  | div f1 f2 f3 =>
    obtain ⟨i1, i2, i3, h1, h2, h3⟩ := indices_of_regsLegal hlegal rfl
    rw [exec_div_of_index h1 h2 h3] at h
    rcases divideInto_cases (srcLeft s.build.arithOrder i1 i2 i3) (srcRight s.build.arithOrder i1 i2 i3)
      (dest s.build.arithOrder i1 i2 i3) s with ⟨hzero, -⟩ | ⟨hleft, hright, -⟩ | ⟨-, -, he⟩
    · exact .inl ⟨.divByZero, f1, f2, f3, rfl, (signedReg_srcRight h2 h3 _ s).trans hzero⟩
    · exact .inl ⟨.divOverflow, f1, f2, f3, rfl, (signedReg_srcLeft h1 h2 _ s).trans hleft,
        (signedReg_srcRight h2 h3 _ s).trans hright⟩
    · cases he.symm.trans h
      exact .inr rfl
  | eq f1 f2 pad =>
    obtain ⟨i1, h1⟩ := index_of_regsLegal hlegal (b := f1) (by simp [Instr.regFields])
    obtain ⟨i2, h2⟩ := index_of_regsLegal hlegal (b := f2) (by simp [Instr.regFields])
    cases (exec_eq_of_index h1 h2 pad s).symm.trans h
    exact .inr rfl
  | load r imm =>
    obtain ⟨j, hj⟩ := index_of_regsLegal hlegal (List.mem_singleton_self r)
    cases (exec_load_of_index hj imm s).symm.trans h
    exact .inr rfl
  | jmp r | jeq r | jneq r =>
    obtain ⟨j, hj⟩ := index_of_regsLegal hlegal (List.mem_singleton_self r)
    exact .inr (jumpIf_status hj h)
  | jmpf r =>
    obtain ⟨j, hj⟩ := index_of_regsLegal hlegal (List.mem_singleton_self r)
    rw [exec_jmpf_of_index hj] at h
    split at h
    · exact .inl ⟨.pcOverflow, r, rfl, by rwa [unsignedReg_of_index hj]⟩
    · cases h
      exact .inr rfl
  | jmpb r =>
    obtain ⟨j, hj⟩ := index_of_regsLegal hlegal (List.mem_singleton_self r)
    rw [exec_jmpb_of_index hj] at h
    split at h
    · exact .inl ⟨.jumpUnderflow, r, rfl, by rwa [unsignedReg_of_index hj]⟩
    · cases h
      exact .inr rfl
  | aloc r =>
    obtain ⟨j, hj⟩ := index_of_regsLegal hlegal (List.mem_singleton_self r)
    rw [exec_aloc_of_index hj, ← signedReg_of_index hj] at h
    rcases allocate_cases (signedReg s r) s with ⟨hneg, -⟩ | ⟨hcount, hfull, -⟩ | ⟨-, -, he⟩
    · exact .inl ⟨.heapNegative, r, rfl, hneg⟩
    · exact .inl ⟨.heapOverflow, r, rfl, hcount, by omega⟩
    · cases he.symm.trans h
      exact .inr rfl

/-! ### The code tells the cause -/

theorem stopBits_injective : Function.Injective stopBits :=
  Function.LeftInverse.injective (g := fun k => StopCode.ofNat k.toNat) fun c => by cases c <;> rfl

/-- From RUNNING and on legal fields, the code of an operation fault is left exactly where the table has its cause. -/
theorem exec_code_eq_iff_faultCause {i : Instr} {s t : State} (hrun : s.code = 0#4) (hlegal : i.regsLegal = true)
    (h : exec i s = .next t) {c : StopCode} (hop : 6 ≤ (stopBits c).toNat) :
    t.code = stopBits c ↔ FaultCause s i c := by
  constructor
  · intro hc
    have hcode : t.code ≠ 0#4 ∧ t.code ≠ 1#4 ∧ t.code ≠ 3#4 := by
      rw [← hc] at hop
      refine ⟨?_, ?_, ?_⟩ <;> bv_omega
    obtain ⟨h0, h1, h3⟩ := hcode
    rcases exec_code_cases h with ⟨-, he⟩ | ⟨-, he⟩ | ⟨hhlt, higl, -⟩
    · exact absurd he h1
    · exact absurd he h3
    · rcases faultCause_or_completes hhlt higl hlegal h with ⟨d, hd⟩ | hstatus
      · cases (exec_of_faultCause hlegal hd).symm.trans h
        rw [State.raise_code] at hc
        exact stopBits_injective hc ▸ hd
      · exact absurd (by rw [State.code, hstatus]; exact hrun) h0
  · intro hcause
    cases (exec_of_faultCause hlegal hcause).symm.trans h
    exact State.raise_code s c

/-- From RUNNING and on legal fields, no instruction leaves a code of the fetch or of the register check. -/
theorem exec_code_of_legal {i : Instr} {s t : State} (hrun : s.code = 0#4) (hlegal : i.regsLegal = true)
    (h : exec i s = .next t) : t.code ≠ 2#4 ∧ t.code ≠ 4#4 ∧ t.code ≠ 5#4 ∧ t.code.toNat ≤ 12 := by
  rcases exec_code_cases h with ⟨-, hc⟩ | ⟨-, hc⟩ | ⟨-, -, hc | ⟨-, b, hb, hill⟩ | ⟨hlow, hhigh⟩⟩
  · rw [hc]
    decide
  · rw [hc]
    decide
  · rw [hc, hrun]
    decide
  · obtain ⟨j, hj⟩ := index_of_regsLegal hlegal hb
    omega
  · exact ⟨by bv_omega, by bv_omega, by bv_omega, hhigh⟩

end Sys2Proof.Machine

/-! SUPPORT. The shape of a fault entry, and what holds while a sticky stop does (60_exceptions.md R243, R247). -/

namespace Sys2Proof.Machine

/-! ### Stops -/

/-- A step that leaves a fault code writes that code and nothing else. -/
theorem step_fault {s t : State} (hs : s.sticky = false) (h : step s = .next t) (hc : 4 ≤ t.code.toNat) :
    ∃ c : StopCode, t = s.setCode c := by
  rcases step_effect h with rfl | hset | he
  · exact absurd ((State.sticky_eq_false_iff t).1 hs) (by bv_omega)
  · exact hset
  · cases he with
    | fault c _ => exact ⟨c, rfl⟩
    | stop c hstop =>
      have hcode : ((s.setCode .running).stopAfterOpcode c).code = stopBits c := State.setCode_code _ c
      rw [hcode] at hc
      rcases hstop with rfl | rfl <;> exact absurd hc (by decide)
    | completes =>
      have hlow : ¬4 ≤ (s.setCode .running).code.toNat := by
        rw [State.setCode_code]
        decide
      exact absurd hc hlow

theorem step_at_hlt {s : State} (hs : s.sticky = false) (hpc : s.pc.toNat < s.prog.len)
    (hop : opcodeAtPc s = .hlt) : step s = exec .hlt (s.setCode .running) := by
  rw [step_of_no_operands hs hpc (by rw [hop]; rfl), instrAtPc_of_hlt hop]

/-- Inside the program of a legal state, the stop of HLT and IGL leaves exactly a + 1: PROG_MAX keeps the advance from
wrapping (R25). -/
theorem stopAfterOpcode_pc {s : State} (h : s.wf) (hpc : s.pc.toNat < s.prog.len) (c : StopCode) :
    ((s.setCode .running).stopAfterOpcode c).pc.toNat = s.pc.toNat + 1 := by
  obtain ⟨⟨-, -, hmax, -⟩, -, -, hlen, -⟩ := h
  rw [State.stopAfterOpcode_eq, State.setCode_pc, BitVec.toNat_add, BitVec.toNat_ofNat]
  omega

/-! ### Sequences of commands -/

/-- A sequence of commands keeps whatever relation each of its commands keeps. -/
theorem serveAll_induction {P : State → State → Prop} (hrefl : ∀ a, P a a)
    (htrans : ∀ a b c, P a b → P b c → P a c) (fuel : Nat) {cs : List Command}
    (hserve : ∀ c ∈ cs, ∀ (s t : State) (r : Response), serve fuel c s = some (t, r) → P s t) {s t : State}
    {rs : List Response} (h : serveAll fuel cs s = some (t, rs)) : P s t := by
  induction cs generalizing s rs with
  | nil =>
    cases h
    exact hrefl _
  | cons c cs ih =>
    rw [serveAll] at h
    split at h
    · cases h
    · rename_i u r hu
      split at h
      · cases h
      · rename_i v rs' hv
        cases h
        exact htrans s u t (hserve c List.mem_cons_self s u r hu)
          (ih (fun d hd => hserve d (List.mem_cons_of_mem c hd)) hv)

/-! ### What a sticky stop holds -/

/-- What no command but RESET changes in a sticky stop. -/
def State.HeldBy (t s : State) : Prop := t.code = s.code ∧ t.pc = s.pc ∧ t.rem = s.rem ∧ t.heap = s.heap

theorem State.HeldBy.refl (s : State) : s.HeldBy s := ⟨rfl, rfl, rfl, rfl⟩

theorem State.HeldBy.trans {s t u : State} (hut : u.HeldBy t) (hts : t.HeldBy s) : u.HeldBy s := by
  obtain ⟨hcode, hpc, hrem, hheap⟩ := hts
  obtain ⟨hcode', hpc', hrem', hheap'⟩ := hut
  exact ⟨hcode'.trans hcode, hpc'.trans hpc, hrem'.trans hrem, hheap'.trans hheap⟩

/-- The code alone decides whether a stop is sticky. -/
theorem State.HeldBy.sticky {s t : State} (h : t.HeldBy s) : t.sticky = s.sticky := by
  obtain ⟨hcode, -⟩ := h
  rw [State.sticky, hcode, State.sticky]

/-- The relation of two states in which the first, if in a sticky stop, holds the second. -/
def State.Holds (s t : State) : Prop := s.sticky = true → t.HeldBy s

theorem State.Holds.refl (s : State) : s.Holds s := fun _ => .refl s

theorem State.Holds.trans {s t u : State} (hst : s.Holds t) (htu : t.Holds u) : s.Holds u := fun hs =>
  (htu ((hst hs).sticky.trans hs)).trans (hst hs)

theorem step_holds {s t : State} (h : step s = .next t) : s.Holds t := fun hs => by
  cases (step_of_sticky hs).symm.trans h
  exact .refl s

/-- No command but RESET leaves a sticky stop. -/
theorem serve_holds {fuel : Nat} {c : Command} {s t : State} {r : Response} (h : serve fuel c s = some (t, r))
    (hreset : c ≠ .reset) : s.Holds t :=
  serve_cases .refl (fun _ _ _ => .trans) (fun _ _ => step_holds) fuel c s t r h (fun hc => absurd hc hreset)
    (fun _ _ _ _ => .refl s) (fun _ _ _ _ => .refl s) (fun _ _ _ => .refl s)

end Sys2Proof.Machine

/-! The statements about the exceptions: which faults there are and when each is raised, their precision, and the stops
only RESET clears (60_exceptions.md). -/

namespace Sys2Proof.Machine

/-- Settles O14. -/
theorem stepAlwaysAnswersNext : Obligations.StepAlwaysAnswersNext := exists_step_eq_next

/-- Settles O17: a faulting step is a write of the code (`step_fault`), and STEP answers the code it leaves. -/
theorem faultsArePrecise : Obligations.FaultsArePrecise := by
  intro s t hs h hc
  have hstop : t.code ≠ 0#4 := by bv_omega
  obtain ⟨c, hset⟩ := step_fault hs h hc
  refine ⟨?_, (serveStep_eq_some_iff s t _).2 ⟨h, (stepResponse_of_stop hstop).symm⟩⟩
  rw [hset, State.setCode_code]
  rfl

/-- Settles O18, row by row of `FaultCause`: each operation fault is left exactly by its causes
(`exec_code_eq_iff_faultCause`), and no fault of the fetch or of the register check is (`exec_code_of_legal`). -/
theorem faultTable : Obligations.FaultTable := by
  intro i s t hstatus hlegal h
  have hrun : s.code = 0#4 := code_of_status_zero hstatus
  have row (c : StopCode) (hop : 6 ≤ (stopBits c).toNat) : t.code = stopBits c ↔ FaultCause s i c :=
    exec_code_eq_iff_faultCause hrun hlegal h hop
  exact ⟨row .divByZero (by decide), row .divOverflow (by decide), row .arithOverflow (by decide),
    row .pcOverflow (by decide), row .jumpUnderflow (by decide), row .heapNegative (by decide),
    row .heapOverflow (by decide), exec_code_of_legal hrun hlegal h⟩

/-- Settles O19: each code is left in its own case only (`stepStopsExactlyWhen`), whose step is
known; the stop after an opcode byte leaves a + 1 (`stopAfterOpcode_pc`). -/
theorem nonFaultStopsPc : Obligations.NonFaultStopsPc := by
  intro s t hwf hs h
  obtain ⟨hend, hhlt, higl, -⟩ := stepStopsExactlyWhen s t hs h
  refine ⟨?_, fun hc => ?_⟩
  · rintro (hc | hc)
    · obtain ⟨hpc, hop⟩ := hhlt.1 hc
      cases (step_at_hlt hs hpc hop).symm.trans h
      exact stopAfterOpcode_pc hwf hpc .halted
    · obtain ⟨hpc, hop⟩ := higl.1 hc
      cases (step_at_igl hs hpc hop).symm.trans h
      exact stopAfterOpcode_pc hwf hpc .illegalOpcode
  · cases (step_at_end hs (hend.1 hc)).symm.trans h
    rfl

/-- Settles O55: each command but RESET holds a sticky stop (`serve_holds`), so a sequence of them does
(`serveAll_induction`); the stopped step is the identity, with which RUN ends at once. -/
theorem onlyResetLeavesStickyStop : Obligations.OnlyResetLeavesStickyStop := by
  intro fuel s hs
  have hstep : step s = .next s := step_of_sticky hs
  obtain ⟨hstop, -⟩ := (State.sticky_eq_true_iff s).1 hs
  refine ⟨fun cs t rs hreset h => ?_, ?_, ?_, rfl⟩
  · exact serveAll_induction State.Holds.refl (fun _ _ _ => .trans) fuel
      (fun c hc _ _ _ hserve => serve_holds hserve fun he => hreset (he ▸ hc)) h hs
  · exact (serveStep_eq_some_iff s s _).2 ⟨hstep, (stepResponse_of_stop hstop).symm⟩
  · exact (serveRun_succ_cases fuel s s _).2 (.inl ⟨hstep, hstop, rfl⟩)

end Sys2Proof.Machine

/-! SUPPORT. RUN through steps that continue (10_state.md R38), and the step of a JMP to its own address
(70_reset_and_hazards.md R278). -/

namespace Sys2Proof.Machine

/-- Through a step that continues, RUN goes on with one turn less. -/
theorem serveRun_of_continues {s t : State} (hstep : step s = .next t) (hrun : t.code = 0#4) (fuel : Nat) :
    serveRun (fuel + 1) s = serveRun fuel t := by
  rw [serveRun, (serveStep_eq_some_iff s t _).2 ⟨hstep, rfl⟩, (stepResponse_eq_continues_iff t).2 hrun]

/-- RUN does not return once a step leads to a running state that steps to itself. -/
theorem serveRun_eq_none_of_loop {s t : State} (hstep : step s = .next t) (hloop : step t = .next t)
    (hrun : t.code = 0#4) (fuel : Nat) : serveRun fuel s = none := by
  induction fuel generalizing s with
  | zero => rfl
  | succ n ih => rw [serveRun_of_continues hstep hrun, ih hloop]

/-- A JMP to its own address writes to pc the value it has, so the code RUNNING is all it leaves behind. -/
theorem step_of_self_jump {s : State} {i : Fin 32} (hs : s.sticky = false) (hwhole : s.pc.toNat + 2 ≤ s.prog.len)
    (hop : opcodeAtPc s = .jmp) (hi : (progByte s 1).toNat = i.val) (hself : s.regs[i] = s.pc) :
    step s = .next (s.setCode .running) := by
  have hjump : step s = .next ((s.setCode .running).setPc (s.getReg i)) := by
    rw [step_of_whole hs (by rwa [hop]), instrAtPc_of_jmp hop]
    exact jumpIf_taken hi rfl (s.setCode .running)
  rw [hjump, show s.getReg i = s.pc from hself]
  rfl

end Sys2Proof.Machine

/-! The statement about the hazards: a program that never stops (70_reset_and_hazards.md). -/

namespace Sys2Proof.Machine

/-- Settles O50: the JMP leads to its own state with the code RUNNING (`step_of_self_jump`), from which the step
is the same (`step_setCode_running`), so RUN loops there (`serveRun_eq_none_of_loop`). -/
theorem selfJumpRunsForever : Obligations.SelfJumpRunsForever := by
  intro s i hs hwhole hop hi hself fuel
  have hstep : step s = .next (s.setCode .running) := step_of_self_jump hs hwhole hop hi hself
  have hloop : step (s.setCode .running) = .next (s.setCode .running) := (step_setCode_running hs).trans hstep
  exact serveRun_eq_none_of_loop hstep hloop (State.setCode_code s .running) fuel

end Sys2Proof.Machine
